-- ==== Sys2Proof/Word.lean ====
section
/-! DEFINITION. The word types of the core, at the widths of spec/00_scope.md rule R9. -/

namespace Sys2Proof

/-- One instruction word of the program ROM: 64 bits (R80). -/
abbrev Word := BitVec 64

/-- A register index, REG_W = 5 bits, r0 to r31 (R9, R21). -/
abbrev Reg := BitVec 5

/-- The signed immediate, IMM_W = 16 bits, two's complement (R9, R83). -/
abbrev Imm := BitVec 16

/-- The instruction id, ID_W = 16 bits, unsigned (R9, R84). -/
abbrev InstrId := BitVec 16

/-- A position: the ROM address of an instruction, PA_W = 16 bits, in instruction units (R9, R24). -/
abbrev Pos := BitVec 16

/-- The program counter and every computed fetch address: PC_W = 32 bits, two's complement (R9, R28). No rule's address
needs more (R10; notes/assumptions/20.md). -/
abbrev Addr := BitVec 32

/-- A counter: CNT_W = 64 bits, unsigned (R9). -/
abbrev Count := BitVec 64

/-- A two-bit saturating counter, values 0 to 3 (R42, R43). -/
abbrev Ctr2 := BitVec 2

end Sys2Proof
end

