-- ==== Sys2Proof/Syntax.lean ====
section
/-! DEFINITION. The instruction record: the eight opcodes and the fields an instruction carries
(spec/30_encoding.md R80 to R86, spec/opcode_table.json). Pure data, no behaviour. -/

namespace Sys2Proof

/-- A register operand field: the present bit and the index (R82). -/
structure Operand where
  present : Bool
  index : Reg
deriving DecidableEq, Repr

/-- The operand fields of one instruction word (R80). Every word has all of them, and a latch carries all
of them whatever the opcode (R24); which of them an opcode uses is R86. The reserved bits are not fields (R85). -/
structure Fields where
  rd : Operand
  rs1 : Operand
  rs2 : Operand
  imm : Imm
  id : InstrId
deriving DecidableEq, Repr

/-- The eight opcodes (R81). -/
inductive Op where
  | add | sub | load | store | beq | bne | nop | halt
deriving DecidableEq, Repr

/-- An instruction: one constructor per row of spec/opcode_table.json. -/
inductive Instr where
  | add (f : Fields)
  | sub (f : Fields)
  | load (f : Fields)
  | store (f : Fields)
  | beq (f : Fields)
  | bne (f : Fields)
  | nop (f : Fields)
  | halt (f : Fields)
deriving DecidableEq, Repr

/-- The fields of an instruction. -/
def Instr.fields : Instr → Fields
  | .add f => f
  | .sub f => f
  | .load f => f
  | .store f => f
  | .beq f => f
  | .bne f => f
  | .nop f => f
  | .halt f => f

/-- The opcode of an instruction, shown in the per-cycle record (R209). -/
def Instr.op : Instr → Op
  | .add _ => .add
  | .sub _ => .sub
  | .load _ => .load
  | .store _ => .store
  | .beq _ => .beq
  | .bne _ => .bne
  | .nop _ => .nop
  | .halt _ => .halt

/-- An operand field that names no register and holds index 0, as a well-formed word writes it. -/
def Operand.absent : Operand := { present := false, index := 0 }

/-- The operand field that names register r (R82). -/
def Operand.of (r : Reg) : Operand := { present := true, index := r }

end Sys2Proof
end

