-- ==== Sys2Proof/WellFormed.lean ====
section
/-! DEFINITION. Well-formedness, the loader's acceptance check of spec/30_encoding.md R88. The core itself runs
every word, well formed or not (R89). -/

namespace Sys2Proof

/-- An absent operand field as a well-formed word holds it: present bit 0 and index 0 (R88). -/
def Operand.isClear (o : Operand) : Bool := !o.present && o.index == 0

/-- Conditions 2 to 6 of R88, on the fields of a decoded instruction. -/
def Instr.wf : Instr → Bool
  | .add f => f.rd.present && f.rs1.present && f.rs2.present && f.imm == 0
  | .sub f => f.rd.present && f.rs1.present && f.rs2.present && f.imm == 0
  | .load f => f.rd.present && f.rs1.present && f.rs2.isClear
  | .store f => f.rd.isClear && f.rs1.present && f.rs2.present
  | .beq f => f.rd.isClear && f.rs1.present && f.rs2.present
  | .bne f => f.rd.isClear && f.rs1.present && f.rs2.present
  | .nop f => f.rd.isClear && f.rs1.isClear && f.rs2.isClear && f.imm == 0
  | .halt f => f.rd.isClear && f.rs1.isClear && f.rs2.isClear && f.imm == 0

/-- Condition 1 of R88: the reserved bits 5:3 and 31:24 are 0. -/
def reservedClear (w : Word) : Bool := w.extractLsb' 3 3 == 0 && w.extractLsb' 24 8 == 0

/-- Condition 7 of R88: the ids of consecutive words increase strictly. -/
def idsRise : List InstrId → Bool
  | a :: b :: rest => decide (a.toNat < b.toNat) && idsRise (b :: rest)
  | [_] => true
  | [] => true

end Sys2Proof
end

