-- ==== Sys2Proof/Decode.lean ====
section
/-! DEFINITION. Decoding and encoding of the 64-bit instruction word (spec/30_encoding.md R80 to R95). Decoding is
total: every word decodes to exactly one of the eight instructions, so there is no encoding to reject (R87, R90). -/

namespace Sys2Proof

/-- The opcode a three-bit op field selects (R81). -/
def Op.ofBits (b : BitVec 3) : Op :=
  if b = 0 then .add
  else if b = 1 then .sub
  else if b = 2 then .load
  else if b = 3 then .store
  else if b = 4 then .beq
  else if b = 5 then .bne
  else if b = 6 then .nop
  else .halt

/-- The op field's value for an opcode (R81). -/
def Op.bits : Op → BitVec 3
  | .add => 0
  | .sub => 1
  | .load => 2
  | .store => 3
  | .beq => 4
  | .bne => 5
  | .nop => 6
  | .halt => 7

/-- The instruction with a given opcode and given fields. -/
def Instr.ofOp : Op → Fields → Instr
  | .add => .add
  | .sub => .sub
  | .load => .load
  | .store => .store
  | .beq => .beq
  | .bne => .bne
  | .nop => .nop
  | .halt => .halt

/-- The register operand field whose index starts at bit lo: five index bits, then the present bit (R80). -/
def Operand.ofWord (w : Word) (lo : Nat) : Operand :=
  { present := w.getLsbD (lo + 5), index := w.extractLsb' lo 5 }

/-- The fields of a word, at the bit positions of R80. Bits 5:3 and 31:24 are not read (R85). -/
def Fields.ofWord (w : Word) : Fields :=
  { rd := Operand.ofWord w 6
    rs1 := Operand.ofWord w 12
    rs2 := Operand.ofWord w 18
    imm := w.extractLsb' 32 16
    id := w.extractLsb' 48 16 }

/-- Decoding: bits 2:0 alone select the instruction, and R80's fields give its operands (R87). -/
def decode (w : Word) : Instr :=
  Instr.ofOp (Op.ofBits (w.extractLsb' 0 3)) (Fields.ofWord w)

/-- The six bits of a register operand field, the present bit above the index (R80). -/
def Operand.bits (o : Operand) : BitVec 6 := BitVec.ofBool o.present ++ o.index

/-- The word of an instruction, from the most significant field down as R80's pattern string lists them, with the
reserved fields 0. The fields fill the 64 bits, so setWidth only names the width. -/
def encode (i : Instr) : Word :=
  (i.fields.id ++ i.fields.imm ++ (0 : BitVec 8) ++ i.fields.rs2.bits ++ i.fields.rs1.bits ++ i.fields.rd.bits
    ++ (0 : BitVec 3) ++ i.op.bits).setWidth 64

/-- A word with its reserved bits 5:3 and 31:24 cleared (R85). -/
def clearReserved (w : Word) : Word := w &&& (0xFFFFFFFF00FFFFC7 : Word)

/-- WF(w), conditions 1 to 6 of R88, which concern one word. -/
def wordWf (w : Word) : Bool := reservedClear w && (decode w).wf

/-- WF of a whole program: every word, and condition 7 of R88 across the program. -/
def programWf (p : List Word) : Bool :=
  p.all wordWf && idsRise (p.map fun w => (decode w).fields.id)

/-- The instruction the decoder reads from a table row's bits: there is one length, 64 bits (R80, R91), and the
bits above nbits are 0. -/
def decodeTableWord (nbits w : Nat) : Option Instr :=
  if nbits ≤ 64 then some (decode (BitVec.ofNat 64 (w % 2 ^ nbits))) else none

end Sys2Proof
end

