-- ==== Sys2Proof/Config.lean ====
section
/-! DEFINITION. The implementation parameters of spec/00_scope.md R9 at the values this hardware takes, and the two
values the spec leaves open. R9 lets a model keep them symbolic; fixing them is a DESIGN CHOICE (notes/assumptions/6.md). The
widths are in Sys2Proof/Word.lean; MAX_CYCLES is an argument of a run. -/

namespace Sys2Proof.Config

/-- PMAX: the largest program length, 2^PA_W (R9). -/
def pmax : Nat := 65536

/-- FLUSH_LEN: the value a misprediction arms the flush countdown with (R9, R203). -/
def flushLen : BitVec 2 := 2

/-- TWO_BIT_INIT: the two-bit counter of a never-trained address (R9, R42; the spec's decision D18). -/
def twoBitInit : Ctr2 := 1

/-- CHOOSER_INIT: the tournament chooser of a never-trained address (R9, R43; the spec's decision D19). -/
def chooserInit : Ctr2 := 1

/-- The type of BRANCH_ORACLE: a pure function of the latch value of the branch, its instruction and its position
(R111; the spec's decision D24). The pipeline's definitions take one as an argument. -/
abbrev Oracle := Instr → Pos → Bool

/-- BRANCH_ORACLE at its reference value: taken exactly when the immediate is negative, for BEQ and for BNE (R111). DESIGN
CHOICE: step takes the reference value (notes/assumptions/7.md). -/
def branchOracle : Oracle := fun i _ => i.fields.imm.slt 0

/-- The three call counters of the branch predictor unit (R45). -/
inductive CallCounter where
  | bpCalls | tCalls1 | tCalls2
deriving DecidableEq, Repr

/-- FREE VALUE (notes/assumptions/9.md). What a call counter of the predictor holds after it is counted on from
2^64 - 1, by the counter and the address of the predict call. The spec states no value there: R115 bounds the counters
by one run's cycles, and these counters go on over many runs (R171). -/
opaque callsPastMax : CallCounter → Pos → Count

/-- FREE VALUE (notes/assumptions/21.md). The direction PE records and follows for a branch that leaves ID on a bp_rst edge, by
pc and m_cycles. PE runs a cycle there (R190) and records a prediction (R198, R225), but the edge makes no predict call
(R263), so the spec states no direction. -/
opaque directionWithoutCall : Addr → Count → Bool

end Sys2Proof.Config
end

