-- ==== Sys2Proof/Machine/State.lean ====
section
/-! DEFINITION. The state of the core as plain data (spec/10_state.md), the reasons a step can stop, and the state right
after reset. -/

namespace Sys2Proof.Machine

/-- The reasons the model stops with a fault. The core itself raises none (R240). -/
inductive Fault where
  /-- An invariant of R220 to R226 does not hold: 'a defect in the engine itself'. Raised by checkedStep in
  Sys2Proof/Safety.lean (the debug build of R242), never by step. Safe: it only stops a run. -/
  | engineDefect
deriving DecidableEq, Repr

/-- The inputs and uses that the model does not accept. None of them is an instruction. -/
inductive Refusal where
  /-- exec's arm of an instruction without a meaning; no arm is one. Safe. -/
  | notModelled (mnemonic : String)
  /-- cfg_bp_kind is 5, 6 or 7 with cfg_bp_en = 1 (R31, R164, I2). Raised by every cycle and by beginRun. Safe. -/
  | reservedPredictorKind
  /-- cfg_prog_len is above PMAX (R266, I16). Raised by every cycle and by beginRun. Safe. -/
  | programTooLong
  /-- m_cycles is 2^64 - 1, so the run would be longer than the host's ceiling allows (I15). Raised by every
  cycle. Safe. -/
  | cycleCounterFull
  /-- The fetch address is below cfg_prog_len and the host placed no word there (R266, item 2). Raised by step.
  Safe. -/
  | romWordNotLoaded
  /-- bp_rst = 1 with rst = 0 between the reset and the end of a run: 'outside the contract, and a model refuses it' (R264,
  I14). Raised by step. Safe. -/
  | bpResetDuringRun
  /-- The loader rejects a program that is not well formed (R88, R241, R266). Raised by beginRun. Safe. -/
  | malformedProgram
  /-- A run with a predictor begins under another kind than the one BPU has made calls under since bp_rst: 'outside the
  contract' (R46, D26; notes/assumptions/14.md). Raised by beginRun. Safe. -/
  | kindChangedWithoutBpReset
deriving DecidableEq, Repr

/-- The labels of a bubble (R24). -/
inductive Bubble where
  | empty | stall | flush
deriving DecidableEq, Repr

/-- A latch value (R23, R24): a bubble with its label and nothing else, or an instruction and its position. DEDUCED: the
spec's record with a kind field holds the same values (notes/assumptions/5.md). -/
inductive Latch where
  | bubble (b : Bubble)
  | instr (i : Instr) (pos : Pos)
deriving DecidableEq, Repr

/-- IDEX: a latch value and the prediction record pred_v, pred_t (R25). -/
structure IdEx where
  latch : Latch
  predV : Bool
  predT : Bool
deriving DecidableEq, Repr

/-- The strategies (R31, R153). -/
inductive BpKind where
  | staticNt | staticT | oneBit | twoBit | tournament
deriving DecidableEq, Repr

/-- A table indexed by instruction address, kept as its entries that differ from the reset value, addresses rising
(R41 to R43). -/
abbrev Table (α : Type) := List (Nat × α)

/-- The program ROM: the words the host placed, addresses rising (R60). Its cells are 64-bit words, not bytes
(notes/assumptions/4.md). -/
abbrev Memory := List (Nat × Word)

/-- The state of the branch predictor unit (R41 to R45), with the tables of every strategy (notes/assumptions/16.md). -/
structure Bpu where
  /-- ob, the 1-bit table (R41). -/
  ob : Table Bool
  /-- tb, the 2-bit table (R42). -/
  tb : Table Ctr2
  /-- t_ob, the tournament's private 1-bit table (R43). -/
  tOb : Table Bool
  /-- t_tb, the tournament's private 2-bit table (R43). -/
  tTb : Table Ctr2
  /-- t_ch, the chooser counters (R43). -/
  tCh : Table Ctr2
  /-- t_lp1, the 1-bit component's prediction last made for an address (R43). -/
  tLp1 : Table Bool
  /-- t_lp2, the 2-bit component's prediction last made for an address (R43). -/
  tLp2 : Table Bool
  /-- bp_calls (R45). -/
  bpCalls : Count
  /-- t_calls1 (R45). -/
  tCalls1 : Count
  /-- t_calls2 (R45). -/
  tCalls2 : Count
  /-- The variant that BPU is an instance of (R46): the strategy of the predict calls made since bp_rst, none for a fresh
  BPU. The model's own field (notes/assumptions/14.md): beginRun alone reads it. -/
  strategy : Option BpKind
deriving DecidableEq, Repr

/-- The whole machine: the inputs the host drives, the pipeline engine, and the predictor unit (R48, R31, R60). -/
structure State where
  /-- The PE reset input (R260). -/
  rst : Bool
  /-- The BPU reset input (R263). -/
  bpRst : Bool
  /-- cfg_fwd_en (R31). -/
  cfgFwdEn : Bool
  /-- cfg_bp_en (R31). -/
  cfgBpEn : Bool
  /-- cfg_bp_kind (R31). -/
  cfgBpKind : BitVec 3
  /-- cfg_prog_len, PA_W + 1 bits (R31). -/
  cfgProgLen : BitVec 17
  /-- The program ROM (R8, R60). -/
  rom : Memory
  /-- The latch IF to ID (R22). -/
  ifid : Latch
  /-- The latch ID to EX, with the prediction record (R22, R25). -/
  idex : IdEx
  /-- The latch EX to MEM (R22). -/
  exmem : Latch
  /-- The latch MEM to WB (R22). -/
  memwb : Latch
  /-- The program counter (R28). -/
  pc : Addr
  /-- halted (R29). -/
  halted : Bool
  /-- The control-flush countdown (R30). -/
  flush : BitVec 2
  /-- m_cycles (R33). -/
  mCycles : Count
  /-- m_retired (R34). -/
  mRetired : Count
  /-- m_raw_stalls (R35). -/
  mRawStalls : Count
  /-- m_control_stalls (R35). -/
  mControlStalls : Count
  /-- m_bp_predictions (R36). -/
  mBpPredictions : Count
  /-- m_bp_mispredictions (R36). -/
  mBpMispredictions : Count
  /-- The branch predictor unit (R7). -/
  bpu : Bpu
  /-- A reset edge or a cycle came after the host last ended a run at its ceiling (R211, R264). The model's own field
  (notes/assumptions/13.md): only a bp_rst edge reads it. -/
  inRun : Bool
deriving DecidableEq, Repr

/-- The predictor unit after bp_rst: every table at its reset value, every call counter 0 (R48, R263). -/
def Bpu.reset : Bpu :=
  { ob := [], tb := [], tOb := [], tTb := [], tCh := [], tLp1 := [], tLp2 := []
    bpCalls := 0, tCalls1 := 0, tCalls2 := 0, strategy := none }

/-- IDEX at reset (R27). -/
def IdEx.reset : IdEx := { latch := .bubble .empty, predV := false, predT := false }

/-- The machine right after rst and bp_rst (R48, R260, R263), with no program placed and every configuration
input low (notes/assumptions/1.md), before the host begins its first run (notes/assumptions/13.md). -/
def State.reset : State :=
  { rst := false, bpRst := false
    cfgFwdEn := false, cfgBpEn := false, cfgBpKind := 0, cfgProgLen := 0, rom := []
    ifid := .bubble .empty, idex := IdEx.reset, exmem := .bubble .empty, memwb := .bubble .empty
    pc := 0, halted := false, flush := 0
    mCycles := 0, mRetired := 0, mRawStalls := 0, mControlStalls := 0
    mBpPredictions := 0, mBpMispredictions := 0
    bpu := Bpu.reset
    inRun := false }

end Sys2Proof.Machine
end

