-- ==== Sys2Proof/Machine/Ops.lean ====
section
/-! DEFINITION. The named operations over the program ROM, the predictor tables, latches and addresses.

TAKING AN EXCEPTION has no operation here, because the core has none: no instruction, fetch or operand raises
anything (spec/60_exceptions.md R240), there is no interrupt, trap entry or vector (R243) and no trap return (R244).
The conditions the source calls error-like are ordinary behaviour (R241) and stand where they happen. -/

namespace Sys2Proof.Machine

/-! Sparse storage: entries by address, addresses strictly rising. -/

/-- Addresses rise strictly and stay below PMAX. -/
def sparseRising {α : Type} : List (Nat × α) → Bool
  | [] => true
  | [(a, _)] => decide (a < Config.pmax)
  | (a, _) :: (b, v) :: rest => decide (a < b) && sparseRising ((b, v) :: rest)

/-- The entry at an address. -/
def sparseFind {α : Type} : List (Nat × α) → Nat → Option α
  | [], _ => none
  | (a, v) :: rest, p => if p = a then some v else sparseFind rest p

/-- Puts an entry at an address, over the old one if there is one. -/
def sparsePut {α : Type} : List (Nat × α) → Nat → α → List (Nat × α)
  | [], p, v => [(p, v)]
  | (a, w) :: rest, p, v =>
    if p < a then (p, v) :: (a, w) :: rest
    else if p = a then (p, v) :: rest
    else (a, w) :: sparsePut rest p v

/-- Removes the entry at an address. -/
def sparseDrop {α : Type} : List (Nat × α) → Nat → List (Nat × α)
  | [], _ => []
  | (a, w) :: rest, p => if p = a then rest else (a, w) :: sparseDrop rest p

/-! The program ROM (R8, R60). The core never writes it; the host places words between runs. -/

/-- The combinational read Rom(a). None where the host placed no word (notes/assumptions/3.md). -/
def Memory.read (m : Memory) (a : Nat) : Option Word := sparseFind m a

/-- The host places a word at an address below PMAX (R266); there is no cell at any other address (R67). -/
def Memory.place (m : Memory) (a : Nat) (w : Word) : Memory :=
  if a < Config.pmax then sparsePut m a w else m

/-- The canonical form of the ROM: addresses rise strictly and stay below PMAX. -/
def Memory.wf (m : Memory) : Bool := sparseRising m

/-- A program in ROM addresses a, a + 1, ... -/
def Memory.ofWords : Nat → List Word → Memory
  | _, [] => []
  | a, w :: rest => (a, w) :: Memory.ofWords (a + 1) rest

/-! The predictor tables (R41 to R43): an entry no update has touched holds the reset value d. -/

/-- The entry of a table at an address. -/
def Table.get {α : Type} (d : α) (t : Table α) (p : Pos) : α := (sparseFind t p.toNat).getD d

/-- Writes the entry of a table at an address. An entry equal to the reset value is not listed. -/
def Table.set {α : Type} [DecidableEq α] (d : α) (t : Table α) (p : Pos) (v : α) : Table α :=
  if v = d then sparseDrop t p.toNat else sparsePut t p.toNat v

/-- The canonical form of a table: addresses rise strictly, and no listed entry is the reset value. -/
def Table.wf {α : Type} [DecidableEq α] (d : α) (t : Table α) : Bool :=
  sparseRising t && t.all fun e => decide (e.2 ≠ d)

/-! Counters. -/

/-- The two-bit saturating counter after +1 (R167). -/
def satUp (c : Ctr2) : Ctr2 := if c = 3 then 3 else c + 1

/-- The two-bit saturating counter after -1 (R167). -/
def satDown (c : Ctr2) : Ctr2 := if c = 0 then 0 else c - 1

/-- A metrics counter grows by 1 when its event happens (R33 to R36). The contract keeps m_cycles below 2^64 - 1 at
the start of a cycle, and no metrics counter is above m_cycles in a run (R224), so none wraps in a run
(notes/assumptions/10.md). -/
def countIf (event : Bool) (c : Count) : Count := if event then c + 1 else c

/-- A call counter of the predictor after one more call from address p (R45). Counted on from 2^64 - 1 it holds a free
value (notes/assumptions/9.md). -/
def countCall (which : Config.CallCounter) (p : Pos) (c : Count) : Count :=
  if c = BitVec.allOnes 64 then Config.callsPastMax which p else c + 1

/-! Instruction addresses (R28, R110). -/

/-- pos + 1, the fall-through of the instruction at pos, as a signed PC_W-bit address (R110). -/
def fallthrough (p : Pos) : Addr := p.setWidth 32 + 1

/-- pos + 1 + imm, the branch target, as a signed PC_W-bit address (R110). -/
def target (p : Pos) (imm : Imm) : Addr := fallthrough p + imm.signExtend 32

/-- Where a branch at pos continues: the target if taken, the fall-through if not (R198, R203). -/
def continueAt (p : Pos) (imm : Imm) (taken : Bool) : Addr :=
  if taken then target p imm else fallthrough p

/-- The bounds test 0 ≤ a < N on a signed fetch address (R64, R65). -/
def inProgram (a : Addr) (n : BitVec 17) : Bool := decide (0 ≤ a.toInt) && decide (a.toInt < (n.toNat : Int))

/-! Latches. -/

/-- The kind code of a latch value: 0 EMPTY, 1 INSTR, 2 STALL, 3 FLUSH (R24). -/
def Latch.kind : Latch → BitVec 2
  | .bubble .empty => 0
  | .instr _ _ => 1
  | .bubble .stall => 2
  | .bubble .flush => 3

/-- IDEX with a value and no prediction record (R194). -/
def IdEx.plain (l : Latch) : IdEx := { latch := l, predV := false, predT := false }

/-! Resets. -/

/-- The rising edge with rst = 1: every element of PE takes its reset value; BPU and the inputs keep theirs
(R260, R263). A run is on from this edge (R211, R264). -/
def State.resetPe (s : State) : State :=
  { s with
    ifid := .bubble .empty, idex := IdEx.reset, exmem := .bubble .empty, memwb := .bubble .empty
    pc := 0, halted := false, flush := 0
    mCycles := 0, mRetired := 0, mRawStalls := 0, mControlStalls := 0
    mBpPredictions := 0, mBpMispredictions := 0
    inRun := true }

/-- The rising edge with bp_rst = 1: every table and counter of BPU takes its reset value (R263). -/
def State.resetBpu (s : State) : State := { s with bpu := Bpu.reset }

/-- The host ends a run at its cycle ceiling (R211). Nothing of the core changes. -/
def State.endRun (s : State) : State := { s with inRun := false }

/-- The edge lies between the reset and the end of a run: no HALT has retired and the host has not ended the run
(R211, R212, R264). -/
def duringRun (s : State) : Bool := s.inRun && !s.halted

end Sys2Proof.Machine
end

