-- ==== Sys2Proof/Machine/Operands.lean ====
section
/-! DEFINITION. Operand forms and the role of each instruction in the pipeline (spec/40_instructions.md). The pipeline
reads an instruction only through these (R100); each instruction has a role definition of its own. -/

namespace Sys2Proof.Machine

/-- The register an operand field names, or none where its present bit is 0 (R82). -/
def operandReg (o : Operand) : Option Reg := if o.present then some o.index else none

/-- What an instruction does when it is in WB (R114). -/
inductive WbEffect where
  /-- It counts as retired. -/
  | retires
  /-- It is neither counted nor halts. -/
  | nothing
  /-- It halts the core and is not counted. -/
  | halts
deriving DecidableEq, Repr

/-- The role of an instruction: its 'meaning' in spec/40_instructions.md. -/
structure Role where
  /-- The register it produces, if any (R101). -/
  dst : Option Reg
  /-- Its first source, if it has that source (R102). -/
  src1 : Option Reg
  /-- Its second source, if it has that source (R102). -/
  src2 : Option Reg
  /-- Its result is not available until MEM: the load-use case (R134). -/
  late : Bool
  /-- It is a branch (R109). -/
  branch : Bool
  /-- Its effect in WB (R114). -/
  wb : WbEffect
deriving DecidableEq, Repr

/-- ADD produces rd and consumes rs1 and rs2 (R103). -/
def roleAdd (f : Fields) : Role :=
  { dst := operandReg f.rd, src1 := operandReg f.rs1, src2 := operandReg f.rs2
    late := false, branch := false, wb := .retires }

/-- SUB produces rd and consumes rs1 and rs2 (R104). -/
def roleSub (f : Fields) : Role :=
  { dst := operandReg f.rd, src1 := operandReg f.rs1, src2 := operandReg f.rs2
    late := false, branch := false, wb := .retires }

/-- LOAD produces rd, late, and consumes its base rs1; rs2 and imm are not read (R105, R86). -/
def roleLoad (f : Fields) : Role :=
  { dst := operandReg f.rd, src1 := operandReg f.rs1, src2 := none
    late := true, branch := false, wb := .retires }

/-- STORE consumes rs1 (data) and rs2 (address base) and produces nothing (R106). -/
def roleStore (f : Fields) : Role :=
  { dst := none, src1 := operandReg f.rs1, src2 := operandReg f.rs2
    late := false, branch := false, wb := .retires }

/-- BEQ is a branch and consumes rs1 and rs2 (R107). -/
def roleBeq (f : Fields) : Role :=
  { dst := none, src1 := operandReg f.rs1, src2 := operandReg f.rs2
    late := false, branch := true, wb := .retires }

/-- BNE is a branch and consumes rs1 and rs2 (R108). -/
def roleBne (f : Fields) : Role :=
  { dst := none, src1 := operandReg f.rs1, src2 := operandReg f.rs2
    late := false, branch := true, wb := .retires }

/-- NOP reads nothing, produces nothing and does nothing in WB, whatever its fields hold (R112). -/
def roleNop (_ : Fields) : Role :=
  { dst := none, src1 := none, src2 := none, late := false, branch := false, wb := .nothing }

/-- HALT reads nothing, produces nothing and halts the core in WB, whatever its fields hold (R113). -/
def roleHalt (_ : Fields) : Role :=
  { dst := none, src1 := none, src2 := none, late := false, branch := false, wb := .halts }

/-- The role of an instruction, by its opcode. -/
def roleOf : Instr → Role
  | .add f => roleAdd f
  | .sub f => roleSub f
  | .load f => roleLoad f
  | .store f => roleStore f
  | .beq f => roleBeq f
  | .bne f => roleBne f
  | .nop f => roleNop f
  | .halt f => roleHalt f

/-- dst(L): the register a latch value produces; a bubble produces none (R101). -/
def Latch.dst : Latch → Option Reg
  | .instr i _ => (roleOf i).dst
  | .bubble _ => none

/-- The first source register of a latch value (R102). -/
def Latch.src1 : Latch → Option Reg
  | .instr i _ => (roleOf i).src1
  | .bubble _ => none

/-- The second source register of a latch value (R102). -/
def Latch.src2 : Latch → Option Reg
  | .instr i _ => (roleOf i).src2
  | .bubble _ => none

/-- consumes(L, r): r is one of the sources of a latch value (R102). -/
def Latch.consumes (l : Latch) (r : Reg) : Bool := l.src1 == some r || l.src2 == some r

/-- A latch value whose result is not available until MEM (R134). -/
def Latch.late : Latch → Bool
  | .instr i _ => (roleOf i).late
  | .bubble _ => false

/-- is_branch(L) (R109). -/
def Latch.isBranch : Latch → Bool
  | .instr i _ => (roleOf i).branch
  | .bubble _ => false

/-- retires(L) (R114). -/
def Latch.retires : Latch → Bool
  | .instr i _ => (roleOf i).wb == .retires
  | .bubble _ => false

/-- halts(L) (R114). -/
def Latch.halts : Latch → Bool
  | .instr i _ => (roleOf i).wb == .halts
  | .bubble _ => false

end Sys2Proof.Machine
end

