-- ==== Sys2Proof/Machine/Flags.lean ====
section
/-! DEFINITION. The status state. The core has no condition codes or status flags, and no instruction writes a flag
(spec/10_state.md R39). The status state is halted and the flush countdown (R29, R30). -/

namespace Sys2Proof.Machine

/-- halted after step 1: a HALT in WB sets it, and nothing in a run clears it (R29, R192). -/
def nextHalted (s : State) : Bool := s.halted || s.memwb.halts

/-- m_retired after step 1: an instruction in WB that is neither NOP nor HALT is counted (R34, R192). -/
def nextRetired (s : State) : Count := countIf s.memwb.retires s.mRetired

/-- A control flush is active: flush > 0 (R195). -/
def flushing (s : State) : Bool := s.flush != 0

/-- The flush countdown after step 4: it counts down by 1 while it is active (R30, R195). -/
def countedFlush (s : State) : BitVec 2 := if flushing s then s.flush - 1 else s.flush

end Sys2Proof.Machine
end

