-- ==== Sys2Proof/Machine/Hazard.lean ====
section
/-! DEFINITION. HD, the combinational hazard detector, and the forwarding-source selects (spec/41_hazard_detector.md). -/

namespace Sys2Proof.Machine

/-- The hazard kinds (R135, R136). -/
inductive HazardKind where
  | none | raw
deriving DecidableEq, Repr

/-- The hazard decision (R135). -/
structure HazardDecision where
  stall : Bool
  kind : HazardKind
deriving DecidableEq, Repr

/-- The instruction in p produces a register that the instruction in id consumes (R132). -/
def dependsOn (id p : Latch) : Bool :=
  match p.dst with
  | some r => id.consumes r
  | none => false

/-- hz_stall (R133, R134). Without forwarding a producer in EX, MEM or WB stalls its consumer in ID; with
forwarding only a LOAD in EX does. -/
def hazardStall (fwdEn : Bool) (id ex mem wb : Latch) : Bool :=
  if fwdEn then ex.late && dependsOn id ex
  else dependsOn id ex || dependsOn id mem || dependsOn id wb

/-- detect: the decision and its kind (R135). -/
def detect (fwdEn : Bool) (id ex mem wb : Latch) : HazardDecision :=
  let stall := hazardStall fwdEn id ex mem wb
  { stall := stall, kind := if stall then .raw else .none }

/-- The forwarding sources (R138). -/
inductive FwdSel where
  | regfile | ex | mem | wb
deriving DecidableEq, Repr

/-- The select for one source operand: the nearest producer of it, when forwarding is enabled (R138). PRESUMED: the spec marks
the priority as general knowledge, and no step reads the select (notes/assumptions/8.md). -/
def forwardSelect (fwdEn : Bool) (src : Option Reg) (ex mem wb : Latch) : FwdSel :=
  match src with
  | none => .regfile
  | some r =>
    if !fwdEn then .regfile
    else if ex.dst == some r then .ex
    else if mem.dst == some r then .mem
    else if wb.dst == some r then .wb
    else .regfile

/-- The hazard decision of a state, on the latches at the start of the cycle (R131, R193). -/
def hazard (s : State) : HazardDecision := detect s.cfgFwdEn s.ifid s.idex.latch s.exmem s.memwb

/-- fwd_sel1 and fwd_sel2 (R138). -/
def fwdSel1 (s : State) : FwdSel := forwardSelect s.cfgFwdEn s.ifid.src1 s.idex.latch s.exmem s.memwb

def fwdSel2 (s : State) : FwdSel := forwardSelect s.cfgFwdEn s.ifid.src2 s.idex.latch s.exmem s.memwb

end Sys2Proof.Machine
end

