-- ==== Sys2Proof/Machine/Predictor.lean ====
section
/-! DEFINITION. BPU, the branch predictor unit: predict and update of the five strategies
(spec/42_branch_predictor.md). -/

namespace Sys2Proof.Machine

/-- The strategy of a kind code; 5, 6 and 7 select none (R31, R164). -/
def BpKind.ofCode (c : BitVec 3) : Option BpKind :=
  if c = 0 then some .staticNt
  else if c = 1 then some .staticT
  else if c = 2 then some .oneBit
  else if c = 3 then some .twoBit
  else if c = 4 then some .tournament
  else none

/-- A two-bit counter trained with an outcome (R161). -/
def trainCtr (taken : Bool) (c : Ctr2) : Ctr2 := if taken then satUp c else satDown c

/-- A two-bit counter predicts taken, or selects the 2-bit component, when it is 2 or 3 (R160, R162). -/
def ctrHigh (c : Ctr2) : Bool := c.getLsbD 1

/-- The tournament's 1-bit component prediction (R162). -/
def tournament1 (b : Bpu) (p : Pos) : Bool := Table.get false b.tOb p

/-- The tournament's 2-bit component prediction (R162). -/
def tournament2 (b : Bpu) (p : Pos) : Bool := ctrHigh (Table.get Config.twoBitInit b.tTb p)

/-- The value predict(p) returns (R156 to R158, R160, R162). -/
def predictTaken (k : BpKind) (b : Bpu) (p : Pos) : Bool :=
  match k with
  | .staticNt => false
  | .staticT => true
  | .oneBit => Table.get false b.ob p
  | .twoBit => ctrHigh (Table.get Config.twoBitInit b.tb p)
  | .tournament =>
    if ctrHigh (Table.get Config.chooserInit b.tCh p) then tournament2 b p else tournament1 b p

/-- predict(p) counts the call (R151, R45), and BPU is from now on an instance of the strategy called (R46). -/
def countPredict (k : BpKind) (p : Pos) (b : Bpu) : Bpu :=
  { b with bpCalls := countCall .bpCalls p b.bpCalls, strategy := some k }

/-- The tournament's predict also records and counts both component predictions (R162). -/
def recordComponents (p : Pos) (b : Bpu) : Bpu :=
  { b with
    tLp1 := Table.set false b.tLp1 p (tournament1 b p)
    tLp2 := Table.set false b.tLp2 p (tournament2 b p)
    tCalls1 := countCall .tCalls1 p b.tCalls1
    tCalls2 := countCall .tCalls2 p b.tCalls2 }

/-- The state of BPU after predict(p) (R155 to R162). -/
def predictState (k : BpKind) (b : Bpu) (p : Pos) : Bpu :=
  match k with
  | .staticNt => countPredict .staticNt p b
  | .staticT => countPredict .staticT p b
  | .oneBit => countPredict .oneBit p b
  | .twoBit => countPredict .twoBit p b
  | .tournament => countPredict .tournament p (recordComponents p b)

/-- The chooser after an outcome: nudged to the component that was right when the two retained predictions differ
(R163). -/
def nudgeChooser (q1 q2 taken : Bool) (c : Ctr2) : Ctr2 :=
  if q1 = q2 then c else if q2 = taken then satUp c else satDown c

/-- The state of BPU after update(p, taken) (R156, R157, R159, R161, R163). -/
def updateState (k : BpKind) (b : Bpu) (p : Pos) (taken : Bool) : Bpu :=
  match k with
  | .staticNt => b
  | .staticT => b
  | .oneBit => { b with ob := Table.set false b.ob p taken }
  | .twoBit =>
    { b with tb := Table.set Config.twoBitInit b.tb p (trainCtr taken (Table.get Config.twoBitInit b.tb p)) }
  | .tournament =>
    { b with
      tCh := Table.set Config.chooserInit b.tCh p
        (nudgeChooser (Table.get false b.tLp1 p) (Table.get false b.tLp2 p) taken
          (Table.get Config.chooserInit b.tCh p))
      tOb := Table.set false b.tOb p taken
      tTb := Table.set Config.twoBitInit b.tTb p (trainCtr taken (Table.get Config.twoBitInit b.tTb p)) }

/-- The two calls of one cycle: predict first, update second (R154). Each is present when it is made. -/
def bpuCycle (k : BpKind) (pred : Option Pos) (upd : Option (Pos × Bool)) (b : Bpu) : Bpu :=
  let b1 := match pred with
    | some p => predictState k b p
    | none => b
  match upd with
  | some (p, t) => updateState k b1 p t
  | none => b1

end Sys2Proof.Machine
end

