-- ==== Sys2Proof/Machine/Pipeline.lean ====
section
/-! DEFINITION. PE, the pipeline engine: the seven steps of one cycle (spec/43_pipeline_engine.md). Each next value is
a function of the state at the start of the cycle; where a later step overrides an earlier one, the function says so. -/

namespace Sys2Proof.Machine

/-- The arms of fetch arbitration (R195 to R197). -/
inductive Arm where
  | flush | rawStall | advance
deriving DecidableEq, Repr

/-- Step 4: a control flush wins over a RAW stall, and that over normal advance (R195 to R197, R246). -/
def arm (s : State) : Arm :=
  if flushing s then .flush else if (hazard s).stall then .rawStall else .advance

/-- The strategy of the attached predictor, if cfg_bp_en = 1 (R31). A reserved kind never runs: the contract refuses
it. -/
def attached (s : State) : Option BpKind := if s.cfgBpEn then BpKind.ofCode s.cfgBpKind else none

/-- A predict call: the branch's position and immediate, and the strategy asked. -/
structure PredictCall where
  kind : BpKind
  pos : Pos
  imm : Imm
deriving DecidableEq, Repr

/-- The predict call for what leaves ID by normal advance, if a predictor is attached and it is a branch (R198). -/
def callFor (l : Latch) : Option BpKind → Option PredictCall
  | none => none
  | some k =>
    match l with
    | .instr i p => if (roleOf i).branch then some { kind := k, pos := p, imm := i.fields.imm } else none
    | .bubble _ => none

/-- The predict call of this cycle. Nothing leaves ID in the other arms, so none is made there (R198). -/
def predictCall (s : State) : Option PredictCall :=
  match arm s with
  | .advance => callFor s.ifid (attached s)
  | .rawStall => none
  | .flush => none

/-- pred_taken: what this cycle's predict call returns, from the BPU state at the start of the cycle (R154). -/
def predicted (s : State) : Option Bool :=
  (predictCall s).map fun c => predictTaken c.kind s.bpu c.pos

/-- faddr: the sequential address, or a predicted branch's target or fall-through (R197, R198). -/
def fetchAddr (s : State) : Addr :=
  match predictCall s with
  | some c => continueAt c.pos c.imm (predictTaken c.kind s.bpu c.pos)
  | none => s.pc

/-- Step 5: the address fetched in this cycle, if a fetch is made (R199). A fetch is made when nothing suppresses it,
the address is in the program, and no HALT has retired, in step 1 of this cycle or before. -/
def fetchSlot (s : State) : Option Pos :=
  match arm s with
  | .advance =>
    if inProgram (fetchAddr s) s.cfgProgLen && !nextHalted s then some ((fetchAddr s).setWidth 16) else none
  | .rawStall => none
  | .flush => none

/-- The resolution of a branch in EX (R201). -/
structure Resolution where
  pos : Pos
  /-- The ground truth. -/
  actual : Bool
  /-- The recorded prediction, or the not-taken guess. -/
  guess : Bool
  /-- Where the branch really continues. -/
  correct : Addr
deriving DecidableEq, Repr

/-- Step 6: the branch in EX resolves against the oracle (R201). -/
def resolve (oracle : Config.Oracle) (x : IdEx) : Option Resolution :=
  match x.latch with
  | .instr i p =>
    if (roleOf i).branch then
      some
        { pos := p, actual := oracle i p, guess := x.predV && x.predT
          correct := continueAt p i.fields.imm (oracle i p) }
    else none
  | .bubble _ => none

/-- The resolution of this cycle that finds its prediction wrong, if there is one (R203). -/
def mispredict (oracle : Config.Oracle) (s : State) : Option Resolution :=
  match resolve oracle s.idex with
  | some r => if r.guess = r.actual then none else some r
  | none => none

/-- IFID after the cycle: held, fetched, or EMPTY where the fetch fails (R195, R196, R199, R200), and squashed by a
misprediction (R204). -/
def nextIfid (oracle : Config.Oracle) (fetched : Option Instr) (s : State) : Latch :=
  match mispredict oracle s with
  | some _ => .bubble .flush
  | none =>
    match arm s with
    | .flush => s.ifid
    | .rawStall => s.ifid
    | .advance =>
      match fetchSlot s, fetched with
      | some a, some i => .instr i a
      | _, _ => .bubble .empty

/-- IDEX after the cycle: a bubble of the arm's label, or what was in ID with its prediction recorded
(R194 to R198). A misprediction leaves it alone (R204, R270). -/
def nextIdex (s : State) : IdEx :=
  match arm s with
  | .flush => IdEx.plain (.bubble .flush)
  | .rawStall => IdEx.plain (.bubble .stall)
  | .advance =>
    match predicted s with
    | some t => { latch := s.ifid, predV := true, predT := t }
    | none => IdEx.plain s.ifid

/-- pc after the cycle: a misprediction redirects it; otherwise a fetch sets it to the address after the fetched one;
otherwise it keeps its value (R199, R200, R203, R205). -/
def nextPc (oracle : Config.Oracle) (s : State) : Addr :=
  match mispredict oracle s with
  | some r => r.correct
  | none =>
    match fetchSlot s with
    | some _ => fetchAddr s + 1
    | none => s.pc

/-- flush after the cycle: armed by a misprediction, otherwise counted down (R195, R203). -/
def nextFlush (oracle : Config.Oracle) (s : State) : BitVec 2 :=
  match mispredict oracle s with
  | some _ => Config.flushLen
  | none => countedFlush s

/-- The update call of this cycle: every branch that resolves with a predictor attached (R201). -/
def updateCall (oracle : Config.Oracle) (s : State) : Option (Pos × Bool) :=
  match attached s, resolve oracle s.idex with
  | some _, some r => some (r.pos, r.actual)
  | _, _ => none

/-- BPU after the cycle: this cycle's predict, then this cycle's update (R154, R206). With no predictor attached BPU is
never called (R165). -/
def nextBpu (oracle : Config.Oracle) (s : State) : Bpu :=
  match attached s with
  | some k => bpuCycle k ((predictCall s).map PredictCall.pos) (updateCall oracle s) s.bpu
  | none => s.bpu

/-- One complete cycle (R208, steps 1 to 7): every next value is computed from the state at the start of the cycle and
all are written at once (R206). The fetched argument is the instruction decoded from the ROM word at the address fetched. -/
def cycle (oracle : Config.Oracle) (fetched : Option Instr) (s : State) : State :=
  { s with
    halted := nextHalted s
    mRetired := nextRetired s
    memwb := s.exmem
    exmem := s.idex.latch
    idex := nextIdex s
    ifid := nextIfid oracle fetched s
    pc := nextPc oracle s
    flush := nextFlush oracle s
    mControlStalls := countIf (arm s == .flush) s.mControlStalls
    mRawStalls := countIf (arm s == .rawStall) s.mRawStalls
    mBpPredictions := countIf (resolve oracle s.idex).isSome s.mBpPredictions
    mBpMispredictions := countIf (mispredict oracle s).isSome s.mBpMispredictions
    bpu := nextBpu oracle s
    mCycles := s.mCycles + 1
    inRun := true }

/-- The coming edge is a cycle of PE (R190) in which BPU can be called: no reset input is high and the core is not halted. -/
def executes (s : State) : Bool := !s.rst && !s.bpRst && !s.halted

/-- The coming edge is a cycle of PE: rst and halted are low (R190), bp_rst or not. The model refuses bp_rst during a run, so
that edge is none (R264). -/
def isCycle (s : State) : Bool := !s.rst && !s.halted && !(s.bpRst && s.inRun)

/-- What the host's contract rules out of a cycle, if anything: a reserved strategy (R31, R164), a program longer than
PMAX (R266, I16), a run longer than the counters allow (I15). notes/assumptions/10.md and 11.md. -/
def contractBreach (s : State) : Option Refusal :=
  if s.cfgBpEn && (BpKind.ofCode s.cfgBpKind).isNone then some .reservedPredictorKind
  else if Config.pmax < s.cfgProgLen.toNat then some .programTooLong
  else if s.mCycles = BitVec.allOnes 64 then some .cycleCounterFull
  else none

/-- A clock edge of PE with rst = 0 (R190, R191): nothing changes once halted, and otherwise one cycle runs, within the
contract. -/
def runCycle (fetched : Option Instr) (s : State) : Host.Outcome State Fault Refusal :=
  if s.halted then .next s
  else
    match contractBreach s with
    | some r => .refused r
    | none => .next (cycle Config.branchOracle fetched s)

/-- The rising edge with rst = 1, over anything else (R260): PE is reset, and BPU too when bp_rst = 1 on the same edge
(R263, R264). -/
def resetEdge (s : State) : State := if s.bpRst then s.resetPe.resetBpu else s.resetPe

/-- What the ROM port delivers in this cycle. -/
inductive FetchOffer where
  /-- No fetch is made (R199, R200). -/
  | noFetch
  /-- The word at the address fetched. -/
  | word (w : Word)
  /-- The address is in the program and the host placed no word there. -/
  | unloaded
deriving DecidableEq, Repr

/-- The ROM port: rom_en, rom_addr and rom_data of this cycle (R60, R199). -/
def fetchOffer (s : State) : FetchOffer :=
  match fetchSlot s with
  | none => .noFetch
  | some a =>
    match Memory.read s.rom a.toNat with
    | some w => .word w
    | none => .unloaded

/-- The cycle of s with what the ROM port delivers. -/
def portCycle (s : State) : Host.Outcome State Fault Refusal :=
  match fetchOffer s with
  | .word w => runCycle (some (decode w)) s
  | .noFetch => runCycle none s
  | .unloaded => .refused .romWordNotLoaded

/-- An outcome with its next state changed by h. -/
def mapNext (h : State → State) : Host.Outcome State Fault Refusal → Host.Outcome State Fault Refusal
  | .next t => .next (h t)
  | .fault r => .fault r
  | .refused r => .refused r

/-- s as PE sees it on a bp_rst edge: a static predictor, which holds no table, stands for the direction that no call gives
(notes/assumptions/21.md). Without a predictor attached nothing reads the kind (R164). -/
def State.directed (s : State) : State :=
  { s with cfgBpKind := if Config.directionWithoutCall s.pc s.mCycles then 1 else 0 }

/-- The state after a bp_rst edge, from the state t that PE's cycle gives: BPU takes its reset value, and nothing but PE's cycle
and this changes (R263). The edge does not take the run up again (notes/assumptions/13.md). -/
def State.afterBpReset (s t : State) : State := { t with cfgBpKind := s.cfgBpKind, bpu := Bpu.reset, inRun := s.inRun }

/-- The rising edge with bp_rst = 1 and rst = 0. Outside a run BPU is reset (R263), with no predict or update call, and PE runs
its cycle if it is not halted (R190, R191), within the contract of every cycle: a reserved strategy is refused here too (R31,
R164, I2). During a run the edge is outside the contract, 'and a model refuses it' (R264, I14). -/
def bpResetEdge (s : State) : Host.Outcome State Fault Refusal :=
  if duringRun s then .refused .bpResetDuringRun
  else if s.halted then .next s.resetBpu
  else
    match contractBreach s with
    | some r => .refused r
    | none => mapNext s.afterBpReset (portCycle s.directed)

/-- The ROM and the program length after the host places a word at the address of this cycle's fetch, the program made
long enough to hold it. Nothing else changes. -/
def placeAtFetch (s : State) (w : Word) : State :=
  let a := (fetchAddr s).toInt.toNat
  { s with
    rom := Memory.place s.rom a w
    cfgProgLen := if s.cfgProgLen.toNat < a + 1 then BitVec.ofNat 17 (a + 1) else s.cfgProgLen }

end Sys2Proof.Machine
end

