-- ==== Sys2Proof/Machine/Arithmetic.lean ====
section
/-! DEFINITION. The meanings of ADD and SUB.

THE FORM OF A MEANING ON THIS CORE (notes/assumptions/2.md). An instruction acts over several cycles, in IF, ID, EX, MEM
and WB, while others act beside it. exec i s is the clock cycle of s in which i is what the ROM port delivers: i enters the
pipe with its position, and every instruction already in the pipe plays its part of the cycle. The parts i plays in the
later stages are its role in Sys2Proof/Machine/Operands.lean, which the same cycle reads from the latches. -/

namespace Sys2Proof.Machine

/-- ADD rd rs1 rs2 (R103). In ID it consumes rs1 and rs2; in EX, MEM and WB it is a producer of rd; in WB it retires. It
computes no value and writes no register, memory or flag. -/
def execAdd (f : Fields) (s : State) : Host.Outcome State Fault Refusal := runCycle (some (.add f)) s

/-- SUB rd rs1 rs2 (R104): ADD's part in every stage, told apart by its opcode in the per-cycle record. -/
def execSub (f : Fields) (s : State) : Host.Outcome State Fault Refusal := runCycle (some (.sub f)) s

end Sys2Proof.Machine
end

