-- ==== Sys2Proof/Machine/Branch.lean ====
section
/-! DEFINITION. The meanings of BEQ and BNE. The form of a meaning is said in Sys2Proof/Machine/Arithmetic.lean. -/

namespace Sys2Proof.Machine

/-- BEQ rs1 rs2 imm (R107). In ID it consumes rs1 and rs2, and when it leaves ID with a predictor attached it is predicted
and fetch follows the prediction (R198). In EX it resolves against the oracle: it is counted, a wrong guess redirects pc,
squashes IFID and arms the flush countdown, and the predictor is updated (R201 to R204). In WB it retires. -/
def execBeq (f : Fields) (s : State) : Host.Outcome State Fault Refusal := runCycle (some (.beq f)) s

/-- BNE rs1 rs2 imm (R108): BEQ's part in every stage. The reference oracle reads only the immediate, so it gives both
branches the same outcome. -/
def execBne (f : Fields) (s : State) : Host.Outcome State Fault Refusal := runCycle (some (.bne f)) s

end Sys2Proof.Machine
end

