-- ==== Sys2Proof/Machine/Control.lean ====
section
/-! DEFINITION. The meanings of NOP and HALT. The form of a meaning is said in Sys2Proof/Machine/Arithmetic.lean. -/

namespace Sys2Proof.Machine

/-- NOP (R112): it flows through every stage as an instruction with an id, never stalls, is never stalled on, and is not
counted in WB. -/
def execNop (f : Fields) (s : State) : Host.Outcome State Fault Refusal := runCycle (some (.nop f)) s

/-- HALT (R113): in IF, ID, EX and MEM it behaves as NOP; in WB it sets halted, which fails that cycle's fetch, and it is not
counted. -/
def execHalt (f : Fields) (s : State) : Host.Outcome State Fault Refusal := runCycle (some (.halt f)) s

end Sys2Proof.Machine
end

