-- ==== Sys2Proof/Machine/LoadStore.lean ====
section
/-! DEFINITION. The meanings of LOAD and STORE. The form of a meaning is said in Sys2Proof/Machine/Arithmetic.lean. -/

namespace Sys2Proof.Machine

/-- LOAD rd rs1 imm (R105). In ID it consumes its base rs1; in EX, MEM and WB it is a producer of rd, late in EX; in WB it
retires. No address is computed and no memory is read (R61). -/
def execLoad (f : Fields) (s : State) : Host.Outcome State Fault Refusal := runCycle (some (.load f)) s

/-- STORE rs1 rs2 imm (R106). In ID it consumes rs1 and rs2; it is never a producer; in WB it retires. No address is
computed and no memory is written (R61). -/
def execStore (f : Fields) (s : State) : Host.Outcome State Fault Refusal := runCycle (some (.store f)) s

end Sys2Proof.Machine
end

