-- ==== Sys2Proof/Machine/Step.lean ====
section
/-! DEFINITION. step: one rising edge of clk (spec/43_pipeline_engine.md R190, spec/70_reset_and_hazards.md R260 to R264). -/

namespace Sys2Proof.Machine

/-- One clock edge. A rst edge is not a cycle (R260), and on a bp_rst edge BPU is reset (R263). Otherwise the core runs one cycle with the instruction the
ROM port delivers, or with none where no fetch is made (R208). -/
def step (s : State) : Host.Outcome State Fault Refusal :=
  if s.rst then .next (resetEdge s)
  else if s.bpRst then bpResetEdge s
  else
    match fetchOffer s with
    | .word w => exec (decode w) s
    | .noFetch => runCycle none s
    | .unloaded => .refused .romWordNotLoaded

/-- The state with one instruction word in the ROM at the address this cycle fetches from, the program made long enough to
hold it. The core fetches at an address it computes, so nothing else is needed; the word is 64 bits, and the bits above
nbits are 0. -/
def State.withFetchWord (s : State) (nbits w : Nat) : State :=
  placeAtFetch s (BitVec.ofNat 64 (w % 2 ^ nbits))

end Sys2Proof.Machine
end

