-- ==== Sys2Proof/Machine/Ports.lean ====
section
/-! DEFINITION. The outputs of the core: the per-cycle record (R209), the ports of PE and BPU as functions of the state at
the start of the cycle (R130, R150, R190), and the derived metrics (R35, R37, R38). Outputs are not state (R32, R48;
notes/assumptions/17.md). -/

namespace Sys2Proof.Machine

/-- One slot of the per-cycle record: a bubble's label, or the opcode and id of an instruction (R209). -/
inductive Slot where
  | empty | stall | flush
  | instr (op : Op) (id : InstrId)
deriving DecidableEq, Repr

/-- The per-cycle record (R209): rec_if, rec_id, rec_ex, rec_mem, rec_wb. -/
structure Record where
  recIf : Slot
  recId : Slot
  recEx : Slot
  recMem : Slot
  recWb : Slot
deriving DecidableEq, Repr

/-- What a slot shows of a latch value (R209). -/
def Latch.slot : Latch → Slot
  | .bubble .empty => .empty
  | .bubble .stall => .stall
  | .bubble .flush => .flush
  | .instr i _ => .instr i.op i.fields.id

/-- The record of a cycle from s to t: the latches after the shift, and the instruction that was in WB before it (R209). -/
def cycleRecord (s t : State) : Record :=
  { recIf := t.ifid.slot, recId := t.idex.latch.slot, recEx := t.exmem.slot, recMem := t.memwb.slot
    recWb := s.memwb.slot }

/-- The record output of the clock edge at s; none where rec_valid = 0: a rst edge (R260), the halted state (R191). -/
def edgeRecord (s : State) : Option Record :=
  if isCycle s then
    match step s with
    | .next t => some (cycleRecord s t)
    | .fault _ => none
    | .refused _ => none
  else none

/-- running (R29). -/
def running (s : State) : Bool := !s.halted

/-- rom_addr, when rom_en = 1 (R190, R199). -/
def romAddr (s : State) : Option Pos :=
  if isCycle s then fetchSlot (if s.bpRst then s.directed else s) else none

/-- rom_en (R190). -/
def romEn (s : State) : Bool := (romAddr s).isSome

/-- pred_req and pred_pc (R150, R198). A bp_rst edge makes no call (R263). -/
def predReq (s : State) : Option Pos := if executes s then (predictCall s).map PredictCall.pos else none

/-- pred_taken, when pred_req = 1 (R150, R154). -/
def predTaken (s : State) : Option Bool := if executes s then predicted s else none

/-- upd_req, upd_pc and upd_taken (R150, R201). A bp_rst edge makes no call (R263). -/
def updReq (s : State) : Option (Pos × Bool) :=
  if executes s then updateCall Config.branchOracle s else none

/-- bp_kind_out, the echo of cfg_bp_kind that stands for name() (R150, R153). -/
def bpKindOut (s : State) : BitVec 3 := s.cfgBpKind

/-- stalls_total (R35). -/
def stallsTotal (s : State) : Nat := s.mRawStalls.toNat + s.mControlStalls.toNat

/-- CPI, an exact rational; none when nothing has retired (R37). -/
def cpi (s : State) : Option Rat :=
  if s.mRetired = 0 then none else some (mkRat (s.mCycles.toNat : Int) s.mRetired.toNat)

/-- Prediction accuracy in percent, an exact rational; none when no branch has resolved (R38). -/
def accuracy (s : State) : Option Rat :=
  if s.mBpPredictions = 0 then none
  else
    some (mkRat (100 * ((s.mBpPredictions.toNat : Int) - (s.mBpMispredictions.toNat : Int))) s.mBpPredictions.toNat)

end Sys2Proof.Machine
end

