-- ==== Sys2Proof/Machine/Run.lean ====
section
/-! DEFINITION. The host's side of a run: the loader contract and the reset that begins a run (R264, R266), and the
driving loop (R211, R212). -/

namespace Sys2Proof.Machine

/-- What the host chooses for a run (R266): the configuration, the program, and whether it raises bp_rst with rst. -/
structure RunConfig where
  fwdEn : Bool
  bpEn : Bool
  bpKind : BitVec 3
  program : List Word
  freshBpu : Bool
deriving DecidableEq, Repr

/-- The run would use BPU under another strategy than the one it has been called under since bp_rst, and does not reset it
(R46). With no predictor attached the kind is ignored (R164), and a fresh BPU takes any kind, at whichever edge bp_rst came
(R171, R264). DESIGN CHOICE: how far R46's contract reaches in these cases (notes/assumptions/14.md). -/
def RunConfig.changesKind (c : RunConfig) (s : State) : Bool :=
  c.bpEn && !c.freshBpu && s.bpu.strategy.isSome && s.bpu.strategy != BpKind.ofCode c.bpKind

/-- The loader's and the host's checks before a run (R266, R31, R46; notes/assumptions/14.md and 15.md). -/
def RunConfig.breach (c : RunConfig) (s : State) : Option Refusal :=
  if Config.pmax < c.program.length then some .programTooLong
  else if !programWf c.program then some .malformedProgram
  else if c.bpEn && (BpKind.ofCode c.bpKind).isNone then some .reservedPredictorKind
  else if c.changesKind s then some .kindChangedWithoutBpReset
  else none

/-- The state with the host's inputs driven and the reset inputs high. -/
def RunConfig.drive (c : RunConfig) (s : State) : State :=
  { s with
    rst := true, bpRst := c.freshBpu
    cfgFwdEn := c.fwdEn, cfgBpEn := c.bpEn, cfgBpKind := c.bpKind
    cfgProgLen := BitVec.ofNat 17 c.program.length
    rom := Memory.ofWords 0 c.program }

/-- The reset inputs low again. -/
def State.lowerResets (s : State) : State := { s with rst := false, bpRst := false }

/-- Begins a run: the loader places the program, the host drives the configuration, and one edge with rst = 1 resets PE,
and BPU with it if the host raises bp_rst too (R260, R263, R264, R266). -/
def beginRun (c : RunConfig) (s : State) : Host.Outcome State Fault Refusal :=
  match c.breach s with
  | some r => .refused r
  | none =>
    match step (c.drive s) with
    | .next t => .next t.lowerResets
    | .fault r => .fault r
    | .refused r => .refused r

/-- What a run leaves: its final state and its records (R15). -/
structure RunResult where
  final : State
  records : List Record
deriving DecidableEq, Repr

/-- The driving loop: cycles until halted = 1 or the cycle ceiling, whichever comes first (R211, R212, D33, D35). There the
host ends the run. -/
def runTo : Nat → State → Host.Outcome RunResult Fault Refusal
  | 0, s => .next { final := s.endRun, records := [] }
  | k + 1, s =>
    if s.halted then .next { final := s.endRun, records := [] }
    else
      match step s with
      | .next t =>
        match runTo k t with
        | .next r => .next { final := r.final, records := (edgeRecord s).toList ++ r.records }
        | .fault r => .fault r
        | .refused r => .refused r
      | .fault r => .fault r
      | .refused r => .refused r

end Sys2Proof.Machine
end

