-- ==== Sys2Proof/Safety.lean ====
section
/-! DEFINITION. The invariants of the pipeline engine (spec/43_pipeline_engine.md R220 to R226) and what the model adds to
them, and the debug build that checks them (R12, R242). -/

namespace Sys2Proof.Machine

/-- R220: an instruction in IFID is at the position just before pc. -/
def pcAgrees (s : State) : Bool :=
  match s.ifid with
  | .instr _ p => s.pc == fallthrough p
  | .bubble _ => true

/-- R221: while a flush is counted down, IFID holds the FLUSH bubble. -/
def flushHoldsBubble (s : State) : Bool := !flushing s || s.ifid == .bubble .flush

/-- R222: the countdown is 0, 1 or 2. -/
def flushLegal (s : State) : Bool := s.flush != 3

/-- R224: the metrics stay within the cycle count, the stalls of both causes together too, and mispredictions within
predictions. -/
def metricsBounded (s : State) : Bool :=
  decide (s.mRetired.toNat ≤ s.mCycles.toNat)
    && decide (s.mRawStalls.toNat + s.mControlStalls.toNat ≤ s.mCycles.toNat)
    && decide (s.mBpPredictions.toNat ≤ s.mCycles.toNat)
    && decide (s.mBpMispredictions.toNat ≤ s.mBpPredictions.toNat)

/-- R225 and R25: a recorded prediction belongs to a branch in IDEX with a predictor enabled, every branch there has one
when a predictor is enabled, and pred_t is 0 without a record. -/
def recordConsistent (s : State) : Bool :=
  (!s.idex.predV || (s.idex.latch.isBranch && s.cfgBpEn))
    && (!(s.cfgBpEn && s.idex.latch.isBranch) || s.idex.predV)
    && (!s.idex.predT || s.idex.predV)

/-- R226: IFID never holds STALL. -/
def ifidLabelLegal (s : State) : Bool := s.ifid != .bubble .stall

/-- An instruction in a latch is the decoding of the ROM word at its position, which is in the program (R60, R199). -/
def Latch.fromRom (s : State) : Latch → Bool
  | .bubble _ => true
  | .instr i p =>
    decide (p.toNat < s.cfgProgLen.toNat)
      && match Memory.read s.rom p.toNat with
        | some w => decode w == i
        | none => false

/-- Every instruction in the pipe comes from the ROM. -/
def latchesFromRom (s : State) : Bool :=
  s.ifid.fromRom s && s.idex.latch.fromRom s && s.exmem.fromRom s && s.memwb.fromRom s

/-- The ROM and the tables of the predictor are in canonical form. -/
def Bpu.wf (b : Bpu) : Bool :=
  Table.wf false b.ob && Table.wf Config.twoBitInit b.tb && Table.wf false b.tOb && Table.wf Config.twoBitInit b.tTb
    && Table.wf Config.chooserInit b.tCh && Table.wf false b.tLp1 && Table.wf false b.tLp2

/-- The invariants of the engine that R242 allows a debug build to check (R220 to R222, R224 to R226). -/
def engineInv (s : State) : Bool :=
  pcAgrees s && flushHoldsBubble s && flushLegal s && metricsBounded s && recordConsistent s && ifidLabelLegal s

/-- The whole invariant: the engine's, the canonical form of the stored data, and the origin of the instructions in the
pipe. -/
def machineInv (s : State) : Bool :=
  engineInv s && Memory.wf s.rom && s.bpu.wf && latchesFromRom s

/-- The debug build: it checks the engine's invariants before each cycle of a run and stops with a fault outside the machine's
state where one fails (R12, R242, I5; notes/assumptions/19.md). A reset edge, of rst or bp_rst, and one in the halted state are
not checked: the host may have driven the next run's configuration by then (R31, R264). -/
def checkedStep (s : State) : Host.Outcome State Fault Refusal :=
  if executes s && !engineInv s then .fault .engineDefect else step s

/-! Terms the statements use. -/

/-- The next k clock edges stay within the host's contract: a legal configuration, and room for k more cycles in m_cycles
(I15). -/
def roomFor (k : Nat) (s : State) : Bool :=
  (contractBreach s).isNone && decide (s.mCycles.toNat + k < 2 ^ 64)

/-- The host placed a word at every address of the program (R266). -/
def romLoaded (s : State) : Prop := ∀ a, a < s.cfgProgLen.toNat → (Memory.read s.rom a).isSome = true

/-- What a cycle without a misprediction leaves in IFID, pc and the countdown: they are held by a stalled or flushed cycle, a
fetch fills IFID and counts pc on, a failed fetch leaves EMPTY and keeps pc, and the countdown only counts down (R195, R196,
R199, R200, R205). -/
def fetchUndisturbed (i : Instr) (s t : State) : Prop :=
  t.flush = countedFlush s ∧
  (arm s ≠ .advance → t.ifid = s.ifid ∧ t.pc = s.pc) ∧
  (arm s = .advance → ∀ a, fetchSlot s = some a → t.ifid = .instr i a ∧ t.pc = fetchAddr s + 1) ∧
  (arm s = .advance → fetchSlot s = none → t.ifid = .bubble .empty ∧ t.pc = s.pc)

/-- BPU after this cycle's predict call, if one is made (R154). -/
def bpuPredicted (s : State) : Bpu :=
  match predictCall s with
  | some c => predictState c.kind s.bpu c.pos
  | none => s.bpu

/-- BPU b trained by the branch in EX, if there is one and a predictor is attached (R201). -/
def bpuTrained (s : State) (b : Bpu) : Bpu :=
  match s.idex.latch, attached s with
  | .instr x q, some k => if x.op = .beq ∨ x.op = .bne then updateState k b q (Config.branchOracle x q) else b
  | .instr _ _, none => b
  | .bubble _, _ => b

/-- Nothing is in the pipe, no countdown is active, and pc is at the last word of the program, at position a: an instruction
fetched now runs alone. -/
def pipeIdle (s : State) (a : Pos) : Bool :=
  executes s && s.flush == 0 && s.pc == a.setWidth 32 && decide (s.cfgProgLen.toNat = a.toNat + 1)
    && s.ifid.kind != 1 && s.idex.latch.kind != 1 && s.exmem.kind != 1 && s.memwb.kind != 1

/-- A latch value with everything hidden that the hazard detector does not read: imm, id, pos and the label of a bubble
(R141). -/
def hazardView : Latch → Latch
  | .bubble _ => .bubble .empty
  | .instr i _ => .instr (Instr.ofOp i.op { i.fields with imm := 0, id := 0 }) 0

/-- An instruction with its id cleared. -/
def eraseId (i : Instr) : Instr := Instr.ofOp i.op { i.fields with id := 0 }

/-- SUB renamed to ADD, and BNE to BEQ. -/
def mergeTwins : Instr → Instr
  | .add f => .add f
  | .sub f => .add f
  | .load f => .load f
  | .store f => .store f
  | .beq f => .beq f
  | .bne f => .beq f
  | .nop f => .nop f
  | .halt f => .halt f

/-- A latch value with its instruction changed by g. -/
def Latch.mapInstr (g : Instr → Instr) : Latch → Latch
  | .bubble b => .bubble b
  | .instr i p => .instr (g i) p

/-- The state with every instruction changed by g, in the latches and in the ROM. -/
def State.mapInstr (g : Instr → Instr) (s : State) : State :=
  { s with
    rom := s.rom.map fun e => (e.1, encode (g (decode e.2)))
    ifid := s.ifid.mapInstr g
    idex := { s.idex with latch := s.idex.latch.mapInstr g }
    exmem := s.exmem.mapInstr g
    memwb := s.memwb.mapInstr g }

/-- The machine of the debug build. -/
def checkedCore : Host.Core :=
  { State := State, Fault := Fault, Refusal := Refusal, step := checkedStep, reset := State.reset }

end Sys2Proof.Machine
end

