-- ==== Sys2Proof/Certificates/Slice0/Obligations.lean ====
section
/-! DEFINITION. The statements for the provers. Each docstring names the rules of spec/ it formalises.

In every statement exec i s is the clock cycle of s in which the ROM port delivers i, the model's form of a meaning
(notes/assumptions/2.md). The spec marks R66, R95, R132, R139 to R141, R155, R163's saturation, R165 to R170, R208, R213,
R220 to R229, R246, R262, R265, R267, R270 and R273 as its own derivations from its other rules: a statement of one of them
has basis 'derived' in OBLIGATIONS.json. -/

open Sys2Proof Sys2Proof.Machine

/-! Encoding. -/

/-- R80 to R84: no bit of an encoding is dropped. Every instruction, with every field at every value, comes back. -/
def Obligations.DecodeOfEncode : Prop := ∀ i : Instr, decode (encode i) = i

/-- R85: the reserved bits are ignored, and are 0 in a well-formed word. -/
def Obligations.ReservedBitsAreIgnored : Prop :=
  ∀ w : Word,
    decode w = decode (clearReserved w) ∧ encode (decode w) = clearReserved w ∧
    (wordWf w = true → w.extractLsb' 3 3 = 0 ∧ w.extractLsb' 24 8 = 0)

/-- R81: the eight opcode numbers, all assigned, in bits 2:0. -/
def Obligations.OpcodeNumbers : Prop :=
  ∀ w : Word,
    (w.toNat % 8 = 0 → (decode w).op = .add) ∧ (w.toNat % 8 = 1 → (decode w).op = .sub) ∧
    (w.toNat % 8 = 2 → (decode w).op = .load) ∧ (w.toNat % 8 = 3 → (decode w).op = .store) ∧
    (w.toNat % 8 = 4 → (decode w).op = .beq) ∧ (w.toNat % 8 = 5 → (decode w).op = .bne) ∧
    (w.toNat % 8 = 6 → (decode w).op = .nop) ∧ (w.toNat % 8 = 7 → (decode w).op = .halt)

/-- R80, R82 to R84: where each operand field stands, in plain arithmetic on the word. -/
def Obligations.FieldPositions : Prop :=
  ∀ w : Word,
    let f := (decode w).fields
    let n := w.toNat
    f.rd.index.toNat = n / 2 ^ 6 % 32 ∧ (f.rd.present = true ↔ n / 2 ^ 11 % 2 = 1) ∧
    f.rs1.index.toNat = n / 2 ^ 12 % 32 ∧ (f.rs1.present = true ↔ n / 2 ^ 17 % 2 = 1) ∧
    f.rs2.index.toNat = n / 2 ^ 18 % 32 ∧ (f.rs2.present = true ↔ n / 2 ^ 23 % 2 = 1) ∧
    f.imm.toInt = (if n / 2 ^ 32 % 2 ^ 16 < 2 ^ 15 then (n / 2 ^ 32 % 2 ^ 16 : Int)
      else (n / 2 ^ 32 % 2 ^ 16 : Int) - 2 ^ 16) ∧
    f.id.toNat = n / 2 ^ 48

/-- Words of 95_test_vectors.md, section 2.1, one for each opcode, decode to their instructions. -/
def Obligations.SpecWordsDecode : Prop :=
  decode 0x00000000008E2840 = .add ⟨.of 1, .of 2, .of 3, 0, 0⟩ ∧
  decode 0x0001000000FE0FC1 = .sub ⟨.of 31, .of 0, .of 31, 0, 1⟩ ∧
  decode 0x0002FFFC000289C2 = .load ⟨.of 7, .of 8, .absent, -4, 2⟩ ∧
  decode 0x0003000C00AA9003 = .store ⟨.absent, .of 9, .of 10, 12, 3⟩ ∧
  decode 0x0004FFFE00820004 = .beq ⟨.absent, .of 0, .of 0, -2, 4⟩ ∧
  decode 0x0005000500923005 = .bne ⟨.absent, .of 3, .of 4, 5, 5⟩ ∧
  decode 0x0006000000000006 = .nop ⟨.absent, .absent, .absent, 0, 6⟩ ∧
  decode 0x0007000000000007 = .halt ⟨.absent, .absent, .absent, 0, 7⟩

/-! What an instruction is to the pipeline. -/

/-- R101 and R102: the register an instruction produces and the registers it consumes. -/
def Obligations.ProducersAndConsumersByOpcode : Prop :=
  (∀ i p r, (Latch.instr i p).dst = some r ↔
    (i.op = .add ∨ i.op = .sub ∨ i.op = .load) ∧ i.fields.rd.present = true ∧ i.fields.rd.index = r) ∧
  (∀ i p r, (Latch.instr i p).consumes r = true ↔
    ((i.op = .add ∨ i.op = .sub ∨ i.op = .store ∨ i.op = .beq ∨ i.op = .bne) ∧
      ((i.fields.rs1.present = true ∧ i.fields.rs1.index = r) ∨
       (i.fields.rs2.present = true ∧ i.fields.rs2.index = r))) ∨
    (i.op = .load ∧ i.fields.rs1.present = true ∧ i.fields.rs1.index = r)) ∧
  (∀ b r, (Latch.bubble b).dst = none ∧ (Latch.bubble b).consumes r = false)

/-- R114 and the first sentence of R109: what retires, what halts, what is a branch. -/
def Obligations.RetireHaltAndBranchClasses : Prop :=
  (∀ i p, ((Latch.instr i p).retires = true ↔ i.op ≠ .nop ∧ i.op ≠ .halt) ∧
    ((Latch.instr i p).halts = true ↔ i.op = .halt) ∧
    ((Latch.instr i p).isBranch = true ↔ i.op = .beq ∨ i.op = .bne)) ∧
  (∀ b, (Latch.bubble b).retires = false ∧ (Latch.bubble b).halts = false ∧ (Latch.bubble b).isBranch = false)

/-- R110 and R10: target and fall-through are exact, with no wrap, and counting on from a position is its fall-through. -/
def Obligations.BranchAddressesAreExact : Prop :=
  ∀ (p : Pos) (imm : Imm),
    (target p imm).toInt = p.toNat + 1 + imm.toInt ∧ (fallthrough p).toInt = p.toNat + 1 ∧
    fallthrough p = p.setWidth 32 + 1

/-- R111: the reference oracle, for BEQ and BNE alike. -/
def Obligations.ReferenceOracleReadsTheSign : Prop :=
  ∀ f p, (Config.branchOracle (.beq f) p = true ↔ f.imm.toInt < 0) ∧
    Config.branchOracle (.bne f) p = Config.branchOracle (.beq f) p

/-! The hazard detector. -/

/-- R133 and R134: the stall decision. Without forwarding a producer in EX, MEM or WB stalls its consumer; with forwarding
only a LOAD in EX does, and what stands in MEM or WB never matters. -/
def Obligations.StallDecision : Prop :=
  ∀ id ex mem wb,
    ((detect false id ex mem wb).stall = true ↔
      ∃ P r, (P = ex ∨ P = mem ∨ P = wb) ∧ P.dst = some r ∧ id.consumes r = true) ∧
    ((detect true id ex mem wb).stall = true ↔
      ∃ f p, ex = .instr (.load f) p ∧ f.rd.present = true ∧ id.consumes f.rd.index = true)

/-- R141: imm, id, pos and the label of a bubble change no output of the detector. -/
def Obligations.DetectorIgnoresOtherFields : Prop :=
  ∀ fwd id ex mem wb,
    detect fwd (hazardView id) (hazardView ex) (hazardView mem) (hazardView wb) = detect fwd id ex mem wb ∧
    forwardSelect fwd (hazardView id).src1 (hazardView ex) (hazardView mem) (hazardView wb)
      = forwardSelect fwd id.src1 ex mem wb ∧
    forwardSelect fwd (hazardView id).src2 (hazardView ex) (hazardView mem) (hazardView wb)
      = forwardSelect fwd id.src2 ex mem wb

/-- R138: the selects. The first is of the source rs1 of the instruction in ID, the second of its source rs2, and each names the
nearest producer. The priority is general knowledge of the spec's (notes/assumptions/8.md). -/
def Obligations.NearestProducerIsForwarded : Prop :=
  (∀ s : State, fwdSel1 s = forwardSelect s.cfgFwdEn s.ifid.src1 s.idex.latch s.exmem s.memwb ∧
    fwdSel2 s = forwardSelect s.cfgFwdEn s.ifid.src2 s.idex.latch s.exmem s.memwb) ∧
  (∀ i p r, (Latch.instr i p).src1 = some r ↔
    (i.op ≠ .nop ∧ i.op ≠ .halt) ∧ i.fields.rs1.present = true ∧ i.fields.rs1.index = r) ∧
  (∀ i p r, (Latch.instr i p).src2 = some r ↔
    (i.op = .add ∨ i.op = .sub ∨ i.op = .store ∨ i.op = .beq ∨ i.op = .bne) ∧
      i.fields.rs2.present = true ∧ i.fields.rs2.index = r) ∧
  (∀ b, (Latch.bubble b).src1 = none ∧ (Latch.bubble b).src2 = none) ∧
  ∀ src ex mem wb,
    forwardSelect false src ex mem wb = .regfile ∧ forwardSelect true none ex mem wb = .regfile ∧
    (∀ r, ex.dst = some r → forwardSelect true (some r) ex mem wb = .ex) ∧
    (∀ r, ex.dst ≠ some r → mem.dst = some r → forwardSelect true (some r) ex mem wb = .mem) ∧
    (∀ r, ex.dst ≠ some r → mem.dst ≠ some r → wb.dst = some r → forwardSelect true (some r) ex mem wb = .wb) ∧
    (∀ r, ex.dst ≠ some r → mem.dst ≠ some r → wb.dst ≠ some r →
      forwardSelect true (some r) ex mem wb = .regfile)

/-- R139, forwarding off: a consumer whose nearest producer is d stages ahead is held for exactly 4 - d cycles, and then
advances. The stages ahead of ID are numbered 1, 2, 3 for EX, MEM, WB. -/
def Obligations.StallLengthWithoutForwarding : Prop :=
  ∀ s : State, executes s = true → roomFor 3 s = true → s.flush = 0 → s.cfgFwdEn = false →
    mispredict Config.branchOracle s = none →
    s.idex.latch.halts = false → s.exmem.halts = false → s.memwb.halts = false →
    let d := if dependsOn s.ifid s.idex.latch then 1 else if dependsOn s.ifid s.exmem then 2
      else if dependsOn s.ifid s.memwb then 3 else 4
    ∃ u, Host.Core.run core (4 - d) s = .next u ∧ u.ifid = s.ifid ∧ u.pc = s.pc ∧
      u.mRawStalls = s.mRawStalls + BitVec.ofNat 64 (4 - d) ∧ arm u = .advance

/-- R140 and R134: with forwarding, a consumer behind a LOAD of its source is held for exactly one cycle, whatever the
consumer is. -/
def Obligations.LoadUseStallsExactlyOnce : Prop :=
  ∀ (s : State) (f : Fields) (p : Pos), executes s = true → roomFor 1 s = true → s.flush = 0 → s.cfgFwdEn = true →
    s.idex.latch = .instr (.load f) p → f.rd.present = true → s.ifid.consumes f.rd.index = true →
    arm s = .rawStall ∧
    ∃ u, step s = .next u ∧ u.ifid = s.ifid ∧ u.pc = s.pc ∧ u.mRawStalls = s.mRawStalls + 1 ∧
      u.idex = IdEx.plain (.bubble .stall) ∧ arm u = .advance

/-! The branch predictor unit. -/

/-- R155: predict changes nothing that a later predict returns from, a second call repeats the first, and every call is
counted (below 2^64 - 1, where the counter still has a next value). -/
def Obligations.PredictIsIdempotent : Prop :=
  ∀ k (b : Bpu) (p : Pos), b.wf = true →
    let b1 := predictState k b p
    let b2 := predictState k b1 p
    (∀ q, predictTaken k b1 q = predictTaken k b q) ∧
    b1.ob = b.ob ∧ b1.tb = b.tb ∧ b1.tOb = b.tOb ∧ b1.tTb = b.tTb ∧ b1.tCh = b.tCh ∧
    (∀ q, q ≠ p → Table.get false b1.tLp1 q = Table.get false b.tLp1 q ∧
      Table.get false b1.tLp2 q = Table.get false b.tLp2 q) ∧
    (∀ q, Table.get false b2.tLp1 q = Table.get false b1.tLp1 q ∧
      Table.get false b2.tLp2 q = Table.get false b1.tLp2 q) ∧
    (b.bpCalls ≠ BitVec.allOnes 64 → b1.bpCalls = b.bpCalls + 1) ∧
    (k = .tournament → b.tCalls1 ≠ BitVec.allOnes 64 → b1.tCalls1 = b.tCalls1 + 1) ∧
    (k = .tournament → b.tCalls2 ≠ BitVec.allOnes 64 → b1.tCalls2 = b.tCalls2 + 1) ∧
    (k ≠ .tournament → b1.tLp1 = b.tLp1 ∧ b1.tLp2 = b.tLp2 ∧ b1.tCalls1 = b.tCalls1 ∧ b1.tCalls2 = b.tCalls2)

/-- R158 and R159: the 1-bit strategy. -/
def Obligations.OneBitPredictsTheLastOutcome : Prop :=
  (∀ p, predictTaken .oneBit Bpu.reset p = false) ∧
  (∀ (b : Bpu) (p : Pos), predictTaken .oneBit b p = Table.get false b.ob p) ∧
  ∀ (b : Bpu) (p q : Pos) (t : Bool), b.wf = true →
    predictTaken .oneBit (updateState .oneBit b p t) q = (if q = p then t else predictTaken .oneBit b q) ∧
    { updateState .oneBit b p t with ob := b.ob } = b

/-- R160 and R161: the 2-bit strategy. -/
def Obligations.TwoBitSaturates : Prop :=
  (∀ p, Table.get Config.twoBitInit Bpu.reset.tb p = 1) ∧
  (∀ (b : Bpu) (p : Pos),
    predictTaken .twoBit b p = true ↔ 2 ≤ (Table.get Config.twoBitInit b.tb p).toNat) ∧
  ∀ (b : Bpu) (p : Pos) (t : Bool), b.wf = true →
    let b' := updateState .twoBit b p t
    let c := (Table.get Config.twoBitInit b.tb p).toNat
    (Table.get Config.twoBitInit b'.tb p).toNat = (if t then min 3 (c + 1) else c - 1) ∧
    (∀ q, q ≠ p → Table.get Config.twoBitInit b'.tb q = Table.get Config.twoBitInit b.tb q) ∧
    { b' with tb := b.tb } = b

/-- R162: the tournament's predict. -/
def Obligations.TournamentPredict : Prop :=
  ∀ (b : Bpu) (p : Pos), b.wf = true →
    let b' := predictState .tournament b p
    let p1 := Table.get false b.tOb p
    let p2 := decide (2 ≤ (Table.get Config.twoBitInit b.tTb p).toNat)
    predictTaken .tournament b p = (if 2 ≤ (Table.get Config.chooserInit b.tCh p).toNat then p2 else p1) ∧
    Table.get false b'.tLp1 p = p1 ∧ Table.get false b'.tLp2 p = p2 ∧
    (b.tCalls1 ≠ BitVec.allOnes 64 → b'.tCalls1 = b.tCalls1 + 1) ∧
    (b.tCalls2 ≠ BitVec.allOnes 64 → b'.tCalls2 = b.tCalls2 + 1) ∧
    (b.bpCalls ≠ BitVec.allOnes 64 → b'.bpCalls = b.bpCalls + 1)

/-- R163: the tournament's update. -/
def Obligations.TournamentUpdate : Prop :=
  ∀ (b : Bpu) (p : Pos) (t : Bool), b.wf = true →
    let b' := updateState .tournament b p t
    let q1 := Table.get false b.tLp1 p
    let q2 := Table.get false b.tLp2 p
    let ch := (Table.get Config.chooserInit b.tCh p).toNat
    let c := (Table.get Config.twoBitInit b.tTb p).toNat
    (q1 = q2 → (Table.get Config.chooserInit b'.tCh p).toNat = ch) ∧
    (q1 ≠ q2 → q2 = t → (Table.get Config.chooserInit b'.tCh p).toNat = min 3 (ch + 1)) ∧
    (q1 ≠ q2 → q2 ≠ t → (Table.get Config.chooserInit b'.tCh p).toNat = ch - 1) ∧
    Table.get false b'.tOb p = t ∧
    (Table.get Config.twoBitInit b'.tTb p).toNat = (if t then min 3 (c + 1) else c - 1) ∧
    (∀ q, q ≠ p →
      Table.get Config.chooserInit b'.tCh q = Table.get Config.chooserInit b.tCh q ∧
      Table.get false b'.tOb q = Table.get false b.tOb q ∧
      Table.get Config.twoBitInit b'.tTb q = Table.get Config.twoBitInit b.tTb q) ∧
    { b' with tCh := b.tCh, tOb := b.tOb, tTb := b.tTb } = b

/-- R154: in a cycle with both calls predict comes first. pred_taken is read from the state at the start of the cycle, the
next state is that of predict and then update, and the tournament's update at the same address reads the component
predictions that this cycle's predict wrote. -/
def Obligations.PredictComesBeforeUpdate : Prop :=
  ∀ (i j : Instr) (s : State) (k : BpKind) (p q : Pos), s.halted = false → contractBreach s = none → arm s = .advance →
    attached s = some k → s.ifid = .instr j p → (Latch.instr j p).isBranch = true →
    ∀ x, s.idex.latch = .instr x q → (Latch.instr x q).isBranch = true → s.bpu.wf = true →
    ∃ t, exec i s = .next t ∧ t.idex.predV = true ∧ t.idex.predT = predictTaken k s.bpu p ∧
      t.bpu = updateState k (predictState k s.bpu p) q (Config.branchOracle x q) ∧
      (k = .tournament → p = q →
        Table.get Config.chooserInit t.bpu.tCh p =
          nudgeChooser (tournament1 s.bpu p) (tournament2 s.bpu p) (Config.branchOracle x q)
            (Table.get Config.chooserInit s.bpu.tCh p))

/-- R166, for every oracle: a branch predicted by a static strategy mispredicts exactly when the outcome is not the fixed
bias. -/
def Obligations.StaticStrategiesMispredict : Prop :=
  ∀ (o : Config.Oracle) (g : Option Instr) (s : State) (i : Instr) (p : Pos), arm s = .advance →
    s.ifid = .instr i p → (Latch.instr i p).isBranch = true →
    (attached s = some .staticNt → (mispredict o (cycle o g s)).isSome = o i p) ∧
    (attached s = some .staticT → (mispredict o (cycle o g s)).isSome = !o i p)

/-- R165: with no predictor attached BPU is not called and does not change, and a branch that leaves ID mispredicts
exactly when it is taken. -/
def Obligations.NoPredictorLeavesBpuAlone : Prop :=
  ∀ s t : State, s.cfgBpEn = false → executes s = true → step s = .next t →
    t.bpu = s.bpu ∧ predReq s = none ∧ updReq s = none ∧
    (∀ i p, arm s = .advance → s.ifid = .instr i p → (Latch.instr i p).isBranch = true →
      (mispredict Config.branchOracle t).isSome = Config.branchOracle i p)

/-- R164: a reserved strategy with cfg_bp_en = 1 is refused by every instruction; with cfg_bp_en = 0 the kind is ignored. -/
def Obligations.ReservedKindIsRefused : Prop :=
  (∀ i s, s.cfgBpEn = true → 5 ≤ s.cfgBpKind.toNat → s.halted = false →
    exec i s = .refused .reservedPredictorKind) ∧
  (∀ i s c, s.cfgBpEn = false →
    exec i { s with cfgBpKind := c } = mapNext (fun t => { t with cfgBpKind := c }) (exec i s))

/-- R168 and R225: a predict call and a resolution come in pairs. The predict calls made so far, less the branches resolved
so far, less the branch in IDEX whose prediction is recorded, is the same after every cycle. -/
def Obligations.PredictionsPairWithResolutions : Prop :=
  ∀ s t : State, engineInv s = true → s.cfgBpEn = true → s.bpu.bpCalls ≠ BitVec.allOnes 64 → executes s = true →
    step s = .next t →
    t.bpu.bpCalls - t.mBpPredictions - (if t.idex.predV then 1 else 0)
      = s.bpu.bpCalls - s.mBpPredictions - (if s.idex.predV then 1 else 0)

/-! Steps and instructions. -/

/-- R199 and R208: a step runs the decoding of the word at the address it fetches from; where no fetch is made it runs the
cycle without one. -/
def Obligations.StepRunsTheDecodedWord : Prop :=
  ∀ s : State, s.rst = false → s.bpRst = false →
    (∀ a w, fetchSlot s = some a → Memory.read s.rom a.toNat = some w → step s = exec (decode w) s) ∧
    (fetchSlot s = none → ∀ i, step s = exec i s)

/-- The model's way to place an instruction where the next cycle fetches it (notes/assumptions/12.md): the next step runs
exactly that instruction. -/
def Obligations.PlacedWordRunsNext : Prop :=
  ∀ (s : State) (w : Nat), s.rst = false → s.bpRst = false → arm s = .advance → nextHalted s = false →
    0 ≤ (fetchAddr s).toInt → (fetchAddr s).toInt < Config.pmax → w < 2 ^ 64 →
    step (s.withFetchWord 64 w) = exec (decode (BitVec.ofNat 64 w)) (s.withFetchWord 64 w)

/-- R103 to R108, R112, R113, R199, R201, R61: every instruction in the cycle that fetches it sequentially, with no HALT in
WB: the whole next state. No prediction is made (no branch is in ID, or no predictor is attached), and no branch in EX
mispredicts. The instruction enters IFID, the others move on, a branch in EX is counted and trains the predictor, HALT does
not stop the fetch, and no ROM word or other counter changes. -/
def Obligations.EveryInstructionEntersThePipe : Prop :=
  ∀ (i : Instr) (s : State), s.halted = false → contractBreach s = none → arm s = .advance → s.memwb.halts = false →
    predictCall s = none → mispredict Config.branchOracle s = none → inProgram s.pc s.cfgProgLen = true →
    exec i s = .next
      { s with
        ifid := .instr i (s.pc.setWidth 16), idex := IdEx.plain s.ifid, exmem := s.idex.latch, memwb := s.exmem
        pc := s.pc + 1, mCycles := s.mCycles + 1
        mRetired := if s.memwb.retires then s.mRetired + 1 else s.mRetired
        mBpPredictions := if s.idex.latch.isBranch then s.mBpPredictions + 1 else s.mBpPredictions
        bpu := bpuTrained s s.bpu, inRun := true }

/-- R103 to R106, R112, R114, R262: an ADD, SUB, LOAD, STORE or NOP that runs alone passes through the five stages in five
cycles. All but the NOP are counted as retired; nothing else changes but pc and the cycle count. -/
def Obligations.LoneInstructionPassesThrough : Prop :=
  ∀ (f : Fields) (i : Instr) (s : State) (a : Pos),
    (i = .add f ∨ i = .sub f ∨ i = .load f ∨ i = .store f ∨ i = .nop f) →
    pipeIdle s a = true → roomFor 5 s = true →
    ∃ t, exec i s = .next t ∧
      Host.Core.run core 4 t = .next
        { s with
          ifid := .bubble .empty, idex := IdEx.reset, exmem := .bubble .empty, memwb := .bubble .empty
          pc := s.pc + 1, mCycles := s.mCycles + 5, inRun := true
          mRetired := if i = .nop f then s.mRetired else s.mRetired + 1 }

/-- R113, R114, R262: a HALT that runs alone halts the core in its fifth cycle, not before, and is not counted. -/
def Obligations.LoneHaltHalts : Prop :=
  ∀ (f : Fields) (s : State) (a : Pos), pipeIdle s a = true → roomFor 5 s = true →
    ∃ t u, exec (.halt f) s = .next t ∧ Host.Core.run core 3 t = .next u ∧ u.halted = false ∧
      step u = .next
        { s with
          ifid := .bubble .empty, idex := IdEx.reset, exmem := .bubble .empty, memwb := .bubble .empty
          pc := s.pc + 1, mCycles := s.mCycles + 5, halted := true, inRun := true }

/-- R107, R108, R201 to R204: a BEQ or BNE that runs alone is predicted in ID, resolves in EX, trains the predictor, and
retires; a wrong guess redirects pc and costs two control stalls. The predictor may be any, or none. That the outcome is the
sign of the immediate is the model's choice of oracle (notes/assumptions/7.md). -/
def Obligations.LoneBranchResolvesAndRetires : Prop :=
  ∀ (f : Fields) (i : Instr) (s : State) (a : Pos), (i = .beq f ∨ i = .bne f) →
    pipeIdle s a = true → roomFor 5 s = true → inProgram (target a f.imm) s.cfgProgLen = false →
    let taken := decide (f.imm.toInt < 0)
    let guess := match attached s with
      | some k => predictTaken k s.bpu a
      | none => false
    let trained := match attached s with
      | some k => updateState k (predictState k s.bpu a) a taken
      | none => s.bpu
    let left : Latch := if guess = taken then .bubble .empty else .bubble .flush
    ∃ t, exec i s = .next t ∧
      Host.Core.run core 4 t = .next
        { s with
          ifid := left, idex := IdEx.plain left, exmem := left, memwb := .bubble .empty
          pc := if guess = taken then fallthrough a else continueAt a f.imm taken
          mCycles := s.mCycles + 5, mRetired := s.mRetired + 1
          mBpPredictions := s.mBpPredictions + 1
          mBpMispredictions := if guess = taken then s.mBpMispredictions else s.mBpMispredictions + 1
          mControlStalls := if guess = taken then s.mControlStalls else s.mControlStalls + 2
          bpu := trained, inRun := true }

/-! The seven steps of a cycle, whatever instruction the ROM port delivers. -/

/-- R192 and R207: retire, and the cycle count. -/
def Obligations.WriteBackRetiresOrHalts : Prop :=
  ∀ (i : Instr) (s : State), s.halted = false → contractBreach s = none →
    ∃ t, exec i s = .next t ∧ t.mCycles = s.mCycles + 1 ∧
      (∀ j p, s.memwb = .instr j p →
        (j.op = .halt → t.halted = true ∧ t.mRetired = s.mRetired) ∧
        (j.op = .nop → t.halted = false ∧ t.mRetired = s.mRetired) ∧
        (j.op ≠ .halt → j.op ≠ .nop → t.halted = false ∧ t.mRetired = s.mRetired + 1)) ∧
      (∀ b, s.memwb = .bubble b → t.halted = false ∧ t.mRetired = s.mRetired)

/-- R195 and R205: the flush arm. It wins over a RAW stall; nothing is fetched. -/
def Obligations.FlushArm : Prop :=
  ∀ (i : Instr) (s : State), s.halted = false → contractBreach s = none → s.flush ≠ 0 →
    ∃ t, exec i s = .next t ∧ t.idex = IdEx.plain (.bubble .flush) ∧
      t.mControlStalls = s.mControlStalls + 1 ∧ t.mRawStalls = s.mRawStalls ∧ fetchSlot s = none ∧
      (mispredict Config.branchOracle s = none →
        t.ifid = s.ifid ∧ t.pc = s.pc ∧ t.flush.toNat = s.flush.toNat - 1)

/-- R196 and R205: the RAW-stall arm. The consumer is held in ID. -/
def Obligations.RawStallArm : Prop :=
  ∀ (i : Instr) (s : State), s.halted = false → contractBreach s = none → s.flush = 0 → (hazard s).stall = true →
    ∃ t, exec i s = .next t ∧ t.idex = IdEx.plain (.bubble .stall) ∧
      t.mRawStalls = s.mRawStalls + 1 ∧ t.mControlStalls = s.mControlStalls ∧ fetchSlot s = none ∧
      (mispredict Config.branchOracle s = none → t.ifid = s.ifid ∧ t.pc = s.pc ∧ t.flush = 0)

/-- R200: the failed fetch, past either end of the program or in the cycle in which a HALT retires. -/
def Obligations.FailedFetch : Prop :=
  ∀ (i : Instr) (s : State), s.halted = false → contractBreach s = none → arm s = .advance →
    mispredict Config.branchOracle s = none →
    ((fetchAddr s).toInt < 0 ∨ (s.cfgProgLen.toNat : Int) ≤ (fetchAddr s).toInt ∨ s.memwb.halts = true) →
    ∃ t, exec i s = .next t ∧ t.ifid = .bubble .empty ∧ t.pc = s.pc

/-- R198 and R199: a branch leaves ID with a predictor attached. Its prediction is recorded, and fetch follows it. -/
def Obligations.PredictedFetch : Prop :=
  ∀ (i j : Instr) (s : State) (k : BpKind) (p : Pos), s.halted = false → contractBreach s = none →
    arm s = .advance → attached s = some k → s.ifid = .instr j p → (j.op = .beq ∨ j.op = .bne) →
    let taken := predictTaken k s.bpu p
    let a := if taken then target p j.fields.imm else fallthrough p
    ∃ t, exec i s = .next t ∧ t.idex = { latch := s.ifid, predV := true, predT := taken } ∧ fetchAddr s = a ∧
      (mispredict Config.branchOracle s = none → s.memwb.halts = false → inProgram a s.cfgProgLen = true →
        t.ifid = .instr i (a.setWidth 16) ∧ t.pc = a + 1)

/-- R201, R203, R204: a branch resolves in EX, whichever arm the cycle takes. A wrong guess is counted, redirects pc, squashes
IFID and arms the countdown; a right guess, and any cycle without a branch in EX, leaves IFID, pc and the countdown to the arm
and the fetch of the cycle. The predictor is trained after this cycle's prediction. -/
def Obligations.BranchResolution : Prop :=
  (∀ (i j : Instr) (s : State) (p : Pos), s.halted = false → contractBreach s = none →
    s.idex.latch = .instr j p → (j.op = .beq ∨ j.op = .bne) →
    let actual := Config.branchOracle j p
    let guess := if s.idex.predV then s.idex.predT else false
    ∃ t, exec i s = .next t ∧ t.mBpPredictions = s.mBpPredictions + 1 ∧
      (guess = actual → t.mBpMispredictions = s.mBpMispredictions ∧ fetchUndisturbed i s t) ∧
      (guess ≠ actual →
        t.mBpMispredictions = s.mBpMispredictions + 1 ∧ t.flush = 2 ∧ t.ifid = .bubble .flush ∧
        t.pc = if actual then target p j.fields.imm else fallthrough p) ∧
      (∀ k, attached s = some k → t.bpu = updateState k (bpuPredicted s) p actual) ∧
      (attached s = none → t.bpu = s.bpu)) ∧
  (∀ (i : Instr) (s : State), s.halted = false → contractBreach s = none → s.idex.latch.isBranch = false →
    ∃ t, exec i s = .next t ∧ t.mBpPredictions = s.mBpPredictions ∧ t.mBpMispredictions = s.mBpMispredictions ∧
      fetchUndisturbed i s t ∧ t.bpu = bpuPredicted s)

/-- R246, item 1: a HALT in WB and a misprediction in EX in one cycle both take effect. -/
def Obligations.HaltAndMispredictionTogether : Prop :=
  ∀ (i : Instr) (s : State) (r : Resolution), s.halted = false → contractBreach s = none → s.memwb.halts = true →
    mispredict Config.branchOracle s = some r →
    ∃ t, exec i s = .next t ∧ t.halted = true ∧ t.mBpMispredictions = s.mBpMispredictions + 1 ∧ t.pc = r.correct ∧
      t.flush = 2 ∧ t.ifid = .bubble .flush ∧ t.mCycles = s.mCycles + 1

/-- R270: the instruction behind a mispredicted branch. In normal advance it goes on; when it is held by a RAW stall it is
squashed. -/
def Obligations.MispredictShadowGoesOn : Prop :=
  ∀ (i : Instr) (s : State) (r : Resolution), s.halted = false → contractBreach s = none →
    mispredict Config.branchOracle s = some r →
    ∃ t, exec i s = .next t ∧ t.ifid = .bubble .flush ∧
      (arm s = .advance → t.idex.latch = s.ifid) ∧
      (arm s = .rawStall → t.idex.latch = .bubble .stall)

/-- R227: a single misprediction costs exactly two control stalls, and the correct path is fetched in the third cycle after
its resolution. s is the state before the resolution, t1 the state after it. -/
def Obligations.SingleMispredictionCostsTwo : Prop :=
  ∀ (s t1 : State) (r : Resolution), executes s = true → roomFor 4 s = true → romLoaded s →
    s.ifid.halts = false → s.exmem.halts = false → s.memwb.halts = false →
    mispredict Config.branchOracle s = some r → step s = .next t1 → mispredict Config.branchOracle t1 = none →
    ∃ t3 t4, Host.Core.run core 2 t1 = .next t3 ∧ t3.mControlStalls = t1.mControlStalls + 2 ∧ t3.flush = 0 ∧
      t3.pc = r.correct ∧ step t3 = .next t4 ∧
      (inProgram r.correct s.cfgProgLen = true →
        ∃ w, Memory.read s.rom (r.correct.setWidth 16 : Pos).toNat = some w ∧
          t4.ifid = .instr (decode w) (r.correct.setWidth 16) ∧ t4.pc = r.correct + 1)

/-- R228: when the shadow of a mispredicted branch mispredicts too, the second redirect replaces the first, and the two
windows together count three control stalls, not four. -/
def Obligations.BackToBackMispredictionsOverlap : Prop :=
  ∀ (s t1 : State) (r1 r2 : Resolution), executes s = true → roomFor 4 s = true →
    s.exmem.halts = false → s.memwb.halts = false → s.flush = 0 →
    mispredict Config.branchOracle s = some r1 → step s = .next t1 → mispredict Config.branchOracle t1 = some r2 →
    t1.flush = 2 ∧ t1.pc = r1.correct ∧
    ∃ t2 t4, step t1 = .next t2 ∧ t2.flush = 2 ∧ t2.pc = r2.correct ∧ Host.Core.run core 2 t2 = .next t4 ∧
      t4.flush = 0 ∧ t4.pc = r2.correct ∧ t4.mControlStalls = s.mControlStalls + 3 ∧
      t4.mBpMispredictions = s.mBpMispredictions + 2

/-- R273: a branch predicted taken to a target outside the program. The fetch fails and pc stays at the fall-through. If
the prediction was right, the fall-through runs with no misprediction counted; if it was wrong, the fall-through is
squashed and pc goes back to it. -/
def Obligations.OutOfRangePredictionFallsThrough : Prop :=
  ∀ (s : State) (i : Instr) (p : Pos) (k : BpKind), executes s = true → roomFor 2 s = true → romLoaded s →
    arm s = .advance → mispredict Config.branchOracle s = none → s.memwb.halts = false → s.exmem.halts = false →
    s.ifid = .instr i p → (i.op = .beq ∨ i.op = .bne) → s.pc = fallthrough p → attached s = some k →
    predictTaken k s.bpu p = true → inProgram (target p i.fields.imm) s.cfgProgLen = false →
    ∃ t u, step s = .next t ∧ t.ifid = .bubble .empty ∧ t.pc = fallthrough p ∧ step t = .next u ∧
      (Config.branchOracle i p = true →
        u.mBpMispredictions = t.mBpMispredictions ∧ u.mBpPredictions = t.mBpPredictions + 1 ∧
        (inProgram (fallthrough p) s.cfgProgLen = true →
          ∃ w, Memory.read s.rom ((fallthrough p).setWidth 16 : Pos).toNat = some w ∧
            u.ifid = .instr (decode w) ((fallthrough p).setWidth 16))) ∧
      (Config.branchOracle i p = false →
        u.mBpMispredictions = t.mBpMispredictions + 1 ∧ u.pc = fallthrough p ∧ u.ifid = .bubble .flush ∧
        u.flush = 2)

/-- R223: nothing stops a latch value on its way from IDEX to WB; three cycles on it retires or halts the core. -/
def Obligations.NothingStopsTheWayToWriteBack : Prop :=
  ∀ s t u v : State, executes s = true → step s = .next t → t.halted = false → step t = .next u → u.halted = false →
    step u = .next v →
    t.exmem = s.idex.latch ∧ u.memwb = s.idex.latch ∧ (v.halted = true ↔ s.idex.latch.halts = true) ∧
    v.mRetired = if s.idex.latch.retires then u.mRetired + 1 else u.mRetired

/-! Resets, the halted state, and the host's side. -/

/-- R260, R263, R264 and R190: the reset edges. A rst edge is no cycle and resets PE. A bp_rst edge makes no predict or update
call; during a run it is refused; outside one it resets BPU, and PE, unless it is halted, runs its cycle beside that (R190), on
any fetch within the contract, and is refused outside it, as any cycle is. The direction it records for a branch in ID is a
free value (notes/assumptions/21.md). That inRun says whether the host has ended the run is the model's choice
(notes/assumptions/13.md). -/
def Obligations.ResetEdges : Prop :=
  ∀ s : State,
    (s.rst = true → edgeRecord s = none) ∧
    (s.bpRst = true → predReq s = none ∧ updReq s = none) ∧
    (s.rst = true →
      step s = .next
        { s with
          ifid := .bubble .empty, idex := { latch := .bubble .empty, predV := false, predT := false }
          exmem := .bubble .empty, memwb := .bubble .empty
          pc := 0, halted := false, flush := 0
          mCycles := 0, mRetired := 0, mRawStalls := 0, mControlStalls := 0
          mBpPredictions := 0, mBpMispredictions := 0
          bpu := if s.bpRst then Bpu.reset else s.bpu
          inRun := true }) ∧
    (s.rst = false → s.bpRst = true → s.halted = true → step s = .next { s with bpu := Bpu.reset }) ∧
    (s.rst = false → s.bpRst = true → s.halted = false → s.inRun = false →
      (∀ t, step s = .next t →
        edgeRecord s = some (cycleRecord s t) ∧
        ∃ f, (∀ a, fetchSlot s.directed = some a → ∃ w, Memory.read s.rom a.toNat = some w ∧ f = some (decode w)) ∧
          t = { cycle Config.branchOracle f s.directed with
                cfgBpKind := s.cfgBpKind, bpu := Bpu.reset, inRun := false } ∧
          (s.ifid.isBranch = false ∨ s.cfgBpEn = false →
            t = { cycle Config.branchOracle f s with bpu := Bpu.reset, inRun := false })) ∧
      (∀ r, contractBreach s = some r → step s = .refused r) ∧
      (contractBreach s = none → romLoaded s → ∃ t, step s = .next t)) ∧
    (s.rst = false → s.bpRst = true → s.halted = false → s.inRun = true → step s = .refused .bpResetDuringRun)

/-- R48: the machine after reset, every element of PE and BPU. -/
def Obligations.ResetValues : Prop :=
  State.reset.ifid = .bubble .empty ∧ State.reset.idex.latch = .bubble .empty ∧
  State.reset.idex.predV = false ∧ State.reset.idex.predT = false ∧
  State.reset.exmem = .bubble .empty ∧ State.reset.memwb = .bubble .empty ∧
  State.reset.pc = 0 ∧ State.reset.halted = false ∧ State.reset.flush = 0 ∧
  State.reset.mCycles = 0 ∧ State.reset.mRetired = 0 ∧ State.reset.mRawStalls = 0 ∧
  State.reset.mControlStalls = 0 ∧ State.reset.mBpPredictions = 0 ∧ State.reset.mBpMispredictions = 0 ∧
  State.reset.bpu = Bpu.reset ∧
  (∀ p : Pos, Table.get false Bpu.reset.ob p = false ∧ Table.get Config.twoBitInit Bpu.reset.tb p = 1 ∧
    Table.get false Bpu.reset.tOb p = false ∧ Table.get Config.twoBitInit Bpu.reset.tTb p = 1 ∧
    Table.get Config.chooserInit Bpu.reset.tCh p = 1 ∧ Table.get false Bpu.reset.tLp1 p = false ∧
    Table.get false Bpu.reset.tLp2 p = false) ∧
  Bpu.reset.bpCalls = 0 ∧ Bpu.reset.tCalls1 = 0 ∧ Bpu.reset.tCalls2 = 0

/-- R191 and R254, with R263: in the halted state a clock edge with both resets low changes nothing and emits no record; no instruction
runs. -/
def Obligations.HaltedStateIsFixed : Prop :=
  ∀ s : State, s.halted = true →
    (s.rst = false → s.bpRst = false → step s = .next s) ∧ edgeRecord s = none ∧ ∀ i, exec i s = .next s

/-- R240: no instruction and no step faults. -/
def Obligations.NothingFaults : Prop :=
  ∀ (s : State) (r : Fault), step s ≠ .fault r ∧ ∀ i, exec i s ≠ .fault r

/-- R89, R241, R266: within the host's contract and with the program in the ROM, every cycle runs, whatever words the
program holds. -/
def Obligations.EveryCycleInContractRuns : Prop :=
  ∀ s : State, executes s = true → contractBreach s = none → romLoaded s → ∃ t, step s = .next t

/-- R60, R61, R72: no step writes the ROM or an input. -/
def Obligations.InputsAreNeverWritten : Prop :=
  ∀ s t : State, step s = .next t →
    t.rom = s.rom ∧ t.cfgProgLen = s.cfgProgLen ∧ t.cfgFwdEn = s.cfgFwdEn ∧ t.cfgBpEn = s.cfgBpEn ∧
    t.cfgBpKind = s.cfgBpKind ∧ t.rst = s.rst ∧ t.bpRst = s.bpRst

/-- R224: in a cycle every metrics counter grows by 0 or 1, m_cycles by exactly 1, and at most one of the stall counters. -/
def Obligations.CountersGrowByAtMostOne : Prop :=
  ∀ s t : State, engineInv s = true → executes s = true → step s = .next t →
    t.mCycles.toNat = s.mCycles.toNat + 1 ∧
    (t.mRetired.toNat = s.mRetired.toNat ∨ t.mRetired.toNat = s.mRetired.toNat + 1) ∧
    (t.mBpPredictions.toNat = s.mBpPredictions.toNat ∨ t.mBpPredictions.toNat = s.mBpPredictions.toNat + 1) ∧
    (t.mBpMispredictions.toNat = s.mBpMispredictions.toNat ∨
      t.mBpMispredictions.toNat = s.mBpMispredictions.toNat + 1) ∧
    ((t.mRawStalls.toNat = s.mRawStalls.toNat ∧
        (t.mControlStalls.toNat = s.mControlStalls.toNat ∨ t.mControlStalls.toNat = s.mControlStalls.toNat + 1)) ∨
      (t.mRawStalls.toNat = s.mRawStalls.toNat + 1 ∧ t.mControlStalls.toNat = s.mControlStalls.toNat))

/-- R209: the per-cycle record of an executed cycle. -/
def Obligations.RecordShowsTheSlots : Prop :=
  (∀ s t : State, executes s = true → step s = .next t →
    edgeRecord s = some ⟨t.ifid.slot, t.idex.latch.slot, t.exmem.slot, t.memwb.slot, s.memwb.slot⟩) ∧
  (∀ i p, (Latch.instr i p).slot = .instr i.op i.fields.id) ∧
  (Latch.bubble .empty).slot = .empty ∧ (Latch.bubble .stall).slot = .stall ∧ (Latch.bubble .flush).slot = .flush

/-! Invariants and whole-machine rules. -/

/-- R220, R221, R222, with R224, R225 and R226, and with two of the model's own: the canonical form of the ROM and the tables
(notes/assumptions/4.md), and that every instruction in the pipe is the decoding of the ROM word at its position (R60,
R199). Every step keeps them. -/
def Obligations.StepKeepsMachineInv : Prop :=
  ∀ s t : State, machineInv s = true → step s = .next t → machineInv t = true

/-- The invariant holds right after reset. -/
def Obligations.ResetMeetsMachineInv : Prop := machineInv State.reset = true

/-- R220 to R226 do not depend on BRANCH_ORACLE: under every oracle, whatever instruction is delivered, a cycle in the contract
keeps the engine's invariants. -/
def Obligations.EngineInvHoldsUnderEveryOracle : Prop :=
  ∀ (o : Config.Oracle) (f : Option Instr) (s : State), engineInv s = true → contractBreach s = none →
    engineInv (cycle o f s) = true

/-- R242: the debug build runs as the core does, for any number of edges, and its assertions never fire, from every state in
which the engine's invariants hold if its next edge is a cycle of a run. On a reset edge nothing is asked: the host may drive the next
run's configuration there over the last run's latches (R31, R264). What is checked when is the model's choice
(notes/assumptions/19.md). -/
def Obligations.DebugBuildAgrees : Prop :=
  ∀ s : State, (executes s = true → engineInv s = true) → ∀ n,
    Host.Core.run checkedCore n s = Host.Core.run core n s ∧
    ∀ r, Host.Core.run checkedCore n s ≠ .fault r

/-- R84, R94, R104, R108: the behaviour does not depend on the ids, and no rule tells SUB from ADD, or under the reference
oracle BNE from BEQ, but the opcode shown in the record. Clearing every id, or renaming SUB and BNE, before a step or after
it is the same. -/
def Obligations.IdsAndTwinNamesDoNotMatter : Prop :=
  ∀ (g : Instr → Instr) (s : State), (g = eraseId ∨ g = mergeTwins) →
    step (s.mapInstr g) = mapNext (State.mapInstr g) (step s)

/-- R267: the empty program. From an empty pipe every cycle fetches nothing, so the pipe stays empty, only m_cycles grows, for
any number of cycles, and the core never halts. Beside it only the labels of bubbles, the prediction record of IDEX, which is
clear after a cycle, and the model's own field inRun differ from before. -/
def Obligations.EmptyProgramOnlyCounts : Prop :=
  ∀ (n : Nat) (s : State), executes s = true → roomFor n s = true → s.cfgProgLen = 0 → s.flush = 0 →
    s.ifid.kind ≠ 1 → s.idex.latch.kind ≠ 1 → s.exmem.kind ≠ 1 → s.memwb.kind ≠ 1 →
    ∃ t, Host.Core.run core n s = .next t ∧ t.halted = false ∧ t.mCycles = s.mCycles + BitVec.ofNat 64 n ∧
      t.ifid.kind ≠ 1 ∧ t.idex.latch.kind ≠ 1 ∧ t.exmem.kind ≠ 1 ∧ t.memwb.kind ≠ 1 ∧
      (0 < n → t.ifid = .bubble .empty ∧ t.idex.predV = false ∧ t.idex.predT = false) ∧
      { t with
        ifid := s.ifid, idex := s.idex, exmem := s.exmem, memwb := s.memwb, mCycles := s.mCycles, inRun := s.inRun } = s

/-- R265: after rst and bp_rst a run does not depend on what the core held before. -/
def Obligations.RoundTrip : Prop :=
  ∀ (c : RunConfig) (s s' u u' : State), c.freshBpu = true → beginRun c s = .next u → beginRun c s' = .next u' →
    ∀ n, runTo n u = runTo n u'

/-- R266: the loader. An acceptable program is placed word by word, and the run starts at position 0; a malformed one is
refused. beginRun stands for the loader (notes/assumptions/12.md), and that it refuses a malformed program, which R89 and I3
leave to a model, is the model's choice (notes/assumptions/15.md). -/
def Obligations.LoaderPlacesTheProgram : Prop :=
  (∀ (c : RunConfig) (s : State), c.breach s = none →
    ∃ t, beginRun c s = .next t ∧ t.rst = false ∧ t.bpRst = false ∧ t.cfgProgLen.toNat = c.program.length ∧
      (∀ a, Memory.read t.rom a = c.program[a]?) ∧ romLoaded t ∧ Memory.wf t.rom = true ∧
      t.cfgFwdEn = c.fwdEn ∧ t.cfgBpEn = c.bpEn ∧ t.cfgBpKind = c.bpKind ∧ t.pc = 0 ∧ t.halted = false ∧
      t.mCycles = 0 ∧ contractBreach t = none ∧ t.bpu = if c.freshBpu then Bpu.reset else s.bpu) ∧
  (∀ (c : RunConfig) (s : State), c.program.length ≤ Config.pmax → programWf c.program = false →
    beginRun c s = .refused .malformedProgram)

/-- R46, R164, R171 and R264: when a run may begin under another strategy. A run without a predictor, one that resets BPU, and
one on a BPU that no strategy has called since bp_rst, at whichever edge that came, begin under any legal kind; a predict call
makes its strategy BPU's, and another one is then refused. How far R46's contract reaches is the model's choice
(notes/assumptions/14.md). -/
def Obligations.KindChangesNeedAFreshPredictor : Prop :=
  (∀ (c : RunConfig) (s : State), c.program.length ≤ Config.pmax → programWf c.program = true →
    (c.bpEn = true → c.bpKind.toNat ≤ 4) →
    ((c.bpEn = false ∨ c.freshBpu = true ∨ s.bpu.strategy = none ∨ s.bpu.strategy = BpKind.ofCode c.bpKind) →
      ∃ t, beginRun c s = .next t) ∧
    (c.bpEn = true → c.freshBpu = false → ∀ k, s.bpu.strategy = some k → BpKind.ofCode c.bpKind ≠ some k →
      beginRun c s = .refused .kindChangedWithoutBpReset)) ∧
  (∀ s t : State, s.bpRst = true → step s = .next t → t.bpu.strategy = none) ∧
  (∀ s t : State, s.rst = false → s.bpRst = false → step s = .next t →
    (predReq s = none → t.bpu.strategy = s.bpu.strategy) ∧
    (∀ p, predReq s = some p → t.bpu.strategy = attached s))

/-- R211, R212 and R207: a run ends halted or at the ceiling, with one record and one count for every cycle. -/
def Obligations.RunEndsHaltedOrAtTheCeiling : Prop :=
  ∀ (k : Nat) (s : State) (r : RunResult), s.rst = false → s.bpRst = false → runTo k s = .next r →
    r.records.length ≤ k ∧ (r.final.halted = true ∨ r.records.length = k) ∧
    r.final.mCycles = s.mCycles + BitVec.ofNat 64 r.records.length
end

