-- ==== Sys2Proof/Laws/Decode.lean ====
section
/-! SUPPORT. The bits of an encoded instruction, and the parts of decoding. -/

namespace Sys2Proof

@[simp] theorem ofBits_bits (o : Op) : Op.ofBits o.bits = o := by cases o <;> rfl

@[simp] theorem bits_ofBits (b : BitVec 3) : (Op.ofBits b).bits = b := by revert b; decide

@[simp] theorem ofOp_op (o : Op) (f : Fields) : (Instr.ofOp o f).op = o := by cases o <;> rfl

@[simp] theorem ofOp_fields (o : Op) (f : Fields) : (Instr.ofOp o f).fields = f := by cases o <;> rfl

@[simp] theorem ofOp_self (i : Instr) : Instr.ofOp i.op i.fields = i := by cases i <;> rfl

/-- A register operand field's bits: the index below, the present bit on top (R80). -/
theorem operand_bits_index (o : Operand) (k : Nat) (h : k < 5) : o.bits.getLsbD k = o.index.getLsbD k := by
  unfold Operand.bits
  rw [BitVec.getLsbD_append]
  simp [h]

theorem operand_bits_present (o : Operand) : o.bits.getLsbD 5 = o.present := by
  unfold Operand.bits
  rw [BitVec.getLsbD_append]
  simp

/-- Every bit of an encoded instruction, field by field (R80). -/
theorem encode_getLsbD (i : Instr) (k : Nat) :
    (encode i).getLsbD k =
      (if k < 3 then i.op.bits.getLsbD k
       else if k < 6 then false
       else if k < 12 then i.fields.rd.bits.getLsbD (k - 6)
       else if k < 18 then i.fields.rs1.bits.getLsbD (k - 12)
       else if k < 24 then i.fields.rs2.bits.getLsbD (k - 18)
       else if k < 32 then false
       else if k < 48 then i.fields.imm.getLsbD (k - 32)
       else i.fields.id.getLsbD (k - 48)) := by
  unfold encode
  simp only [BitVec.getLsbD_setWidth, BitVec.getLsbD_append]
  by_cases hk : k < 64
  · split_ifs <;> (try omega) <;> simp [Nat.sub_sub] <;> omega
  · rw [BitVec.getLsbD_of_ge i.fields.id (k - 48) (by omega)]
    simp only [hk, decide_false, Bool.false_and]
    split_ifs <;> first | omega | rfl

/-- The low three bits of an instruction's word are its opcode number (R81). -/
theorem encode_low_bits (i : Instr) : (encode i).extractLsb' 0 3 = i.op.bits := by
  apply BitVec.eq_of_getLsbD_eq
  intro k hk
  rw [BitVec.getLsbD_extractLsb', encode_getLsbD]
  simp [hk]

end Sys2Proof
end

