-- ==== Sys2Proof/Laws/Memory.lean ====
section
/-! SUPPORT. The laws of sparse storage: what is read after a write, and that every operation on the ROM and on the
predictor tables keeps the canonical form. -/

namespace Sys2Proof.Machine

section Sparse
variable {α : Type}

theorem sparseFind_put_self (m : List (Nat × α)) (p : Nat) (v : α) : sparseFind (sparsePut m p v) p = some v := by
  induction m with
  | nil => simp [sparsePut, sparseFind]
  | cons e rest ih =>
    obtain ⟨a, w⟩ := e
    unfold sparsePut
    split
    · simp [sparseFind]
    · split
      · simp [sparseFind]
      · simp [sparseFind, *]

theorem sparseFind_put_ne (m : List (Nat × α)) (p q : Nat) (v : α) (h : q ≠ p) :
    sparseFind (sparsePut m p v) q = sparseFind m q := by
  induction m with
  | nil => simp [sparsePut, sparseFind, h]
  | cons e rest ih =>
    obtain ⟨a, w⟩ := e
    unfold sparsePut
    split
    · simp [sparseFind, h]
    · split
      · subst_vars
        simp [sparseFind, h]
      · simp [sparseFind, ih]

theorem sparseFind_drop_ne (m : List (Nat × α)) (p q : Nat) (h : q ≠ p) :
    sparseFind (sparseDrop m p) q = sparseFind m q := by
  induction m with
  | nil => simp [sparseDrop]
  | cons e rest ih =>
    obtain ⟨a, w⟩ := e
    unfold sparseDrop
    split
    · subst_vars
      simp [sparseFind, h]
    · simp [sparseFind, ih]

/-- The canonical order in its recursive form: the first address is below PMAX and below every later one. -/
theorem sparseRising_cons (a : Nat) (v : α) (m : List (Nat × α)) :
    sparseRising ((a, v) :: m) = true ↔ a < Config.pmax ∧ (∀ e ∈ m, a < e.1) ∧ sparseRising m = true := by
  induction m generalizing a v with
  | nil => simp [sparseRising]
  | cons e rest ih =>
    obtain ⟨b, w⟩ := e
    simp only [sparseRising, Bool.and_eq_true, decide_eq_true_eq, List.forall_mem_cons]
    constructor
    · rintro ⟨hab, hr⟩
      obtain ⟨hb, hall, _⟩ := (ih b w).1 hr
      exact ⟨by omega, ⟨hab, fun x hx => lt_trans hab (hall x hx)⟩, hr⟩
    · rintro ⟨_, ⟨hab, _⟩, hr⟩
      exact ⟨hab, hr⟩

theorem mem_sparsePut (m : List (Nat × α)) (p : Nat) (v : α) (e : Nat × α) (h : e ∈ sparsePut m p v) :
    e = (p, v) ∨ e ∈ m := by
  induction m with
  | nil =>
    simp only [sparsePut, List.mem_singleton] at h
    exact .inl h
  | cons x rest ih =>
    obtain ⟨a, w⟩ := x
    unfold sparsePut at h
    split at h
    · exact List.mem_cons.1 h
    · split at h
      · rcases List.mem_cons.1 h with h | h <;> simp [h]
      · rcases List.mem_cons.1 h with h | h
        · simp [h]
        · rcases ih h with h | h <;> simp [h]

theorem mem_sparseDrop (m : List (Nat × α)) (p : Nat) (e : Nat × α) (h : e ∈ sparseDrop m p) : e ∈ m := by
  induction m with
  | nil => exact h
  | cons x rest ih =>
    obtain ⟨a, w⟩ := x
    unfold sparseDrop at h
    split at h
    · simp [h]
    · rcases List.mem_cons.1 h with h | h
      · simp [h]
      · simp [ih h]

theorem sparseRising_put (m : List (Nat × α)) (p : Nat) (v : α) (hp : p < Config.pmax) (hm : sparseRising m = true) :
    sparseRising (sparsePut m p v) = true := by
  induction m with
  | nil => simpa [sparsePut, sparseRising] using hp
  | cons x rest ih =>
    obtain ⟨a, w⟩ := x
    obtain ⟨ha, hall, hr⟩ := (sparseRising_cons a w rest).1 hm
    unfold sparsePut
    split
    · rename_i hpa
      refine (sparseRising_cons p v _).2 ⟨hp, ?_, hm⟩
      rintro e he
      rcases List.mem_cons.1 he with rfl | he
      · exact hpa
      · exact lt_trans hpa (hall e he)
    · split
      · subst_vars
        exact (sparseRising_cons _ v rest).2 ⟨hp, hall, hr⟩
      · refine (sparseRising_cons a w _).2 ⟨ha, ?_, ih hr⟩
        intro e he
        rcases mem_sparsePut rest p v e he with rfl | he
        · simp only
          omega
        · exact hall e he

theorem sparseRising_drop (m : List (Nat × α)) (p : Nat) (hm : sparseRising m = true) :
    sparseRising (sparseDrop m p) = true := by
  induction m with
  | nil => simp [sparseDrop, sparseRising]
  | cons x rest ih =>
    obtain ⟨a, w⟩ := x
    obtain ⟨ha, hall, hr⟩ := (sparseRising_cons a w rest).1 hm
    unfold sparseDrop
    split
    · exact hr
    · exact (sparseRising_cons a w _).2 ⟨ha, fun e he => hall e (mem_sparseDrop rest p e he), ih hr⟩

theorem sparseFind_none_of_lt (m : List (Nat × α)) (p : Nat) (h : ∀ e ∈ m, p < e.1) : sparseFind m p = none := by
  induction m with
  | nil => rfl
  | cons x rest ih =>
    obtain ⟨a, w⟩ := x
    have ha : p < a := h (a, w) (by simp)
    simp only [sparseFind]
    rw [if_neg (by omega)]
    exact ih fun e he => h e (by simp [he])

theorem sparseFind_drop_self (m : List (Nat × α)) (p : Nat) (hm : sparseRising m = true) :
    sparseFind (sparseDrop m p) p = none := by
  induction m with
  | nil => rfl
  | cons x rest ih =>
    obtain ⟨a, w⟩ := x
    obtain ⟨_, hall, hr⟩ := (sparseRising_cons a w rest).1 hm
    unfold sparseDrop
    split
    · subst_vars
      exact sparseFind_none_of_lt rest _ hall
    · simp [sparseFind, *]

end Sparse

/-! The ROM. -/

theorem Memory.place_wf (m : Memory) (a : Nat) (w : Word) (hm : Memory.wf m = true) :
    Memory.wf (Memory.place m a w) = true := by
  unfold Memory.place
  split
  · exact sparseRising_put m a w ‹_› hm
  · exact hm

theorem Memory.read_place_self (m : Memory) (a : Nat) (w : Word) (ha : a < Config.pmax) :
    Memory.read (Memory.place m a w) a = some w := by
  simp [Memory.read, Memory.place, ha, sparseFind_put_self]

theorem Memory.read_place_ne (m : Memory) (a b : Nat) (w : Word) (h : b ≠ a) :
    Memory.read (Memory.place m a w) b = Memory.read m b := by
  unfold Memory.read Memory.place
  split
  · exact sparseFind_put_ne m a b w h
  · rfl

theorem Memory.mem_ofWords (ws : List Word) (a : Nat) (e : Nat × Word) (he : e ∈ Memory.ofWords a ws) : a ≤ e.1 := by
  induction ws generalizing a with
  | nil => simp [Memory.ofWords] at he
  | cons w rest ih =>
    rcases List.mem_cons.1 he with rfl | he
    · exact le_rfl
    · exact le_trans (by omega) (ih (a + 1) he)

/-- A program of at most PMAX words is placed in canonical form. -/
theorem Memory.ofWords_wf (ws : List Word) (a : Nat) (h : a + ws.length ≤ Config.pmax) :
    Memory.wf (Memory.ofWords a ws) = true := by
  induction ws generalizing a with
  | nil => rfl
  | cons w rest ih =>
    simp only [List.length_cons] at h
    refine (sparseRising_cons a w _).2 ⟨by omega, fun e he => ?_, ih (a + 1) (by omega)⟩
    exact lt_of_lt_of_le (by omega) (Memory.mem_ofWords rest (a + 1) e he)

/-! The predictor tables. -/

section Tables
variable {α : Type} [DecidableEq α] (d : α)

theorem Table.get_set_self (t : Table α) (p : Pos) (v : α) (ht : Table.wf d t = true) :
    Table.get d (Table.set d t p v) p = v := by
  unfold Table.wf at ht
  unfold Table.get Table.set
  split
  · simp_all [sparseFind_drop_self]
  · simp [sparseFind_put_self]

theorem Table.get_set_ne (t : Table α) (p q : Pos) (v : α) (h : q ≠ p) :
    Table.get d (Table.set d t p v) q = Table.get d t q := by
  have h' : q.toNat ≠ p.toNat := fun e => h (BitVec.eq_of_toNat_eq e)
  unfold Table.get Table.set
  split
  · rw [sparseFind_drop_ne _ _ _ h']
  · rw [sparseFind_put_ne _ _ _ _ h']

theorem Table.set_wf (t : Table α) (p : Pos) (v : α) (ht : Table.wf d t = true) :
    Table.wf d (Table.set d t p v) = true := by
  have hp : p.toNat < Config.pmax := by simpa [Config.pmax] using p.isLt
  simp only [Table.wf, Bool.and_eq_true, List.all_eq_true, decide_eq_true_eq] at ht ⊢
  obtain ⟨hr, hall⟩ := ht
  unfold Table.set
  split
  · exact ⟨sparseRising_drop t p.toNat hr, fun e he => hall e (mem_sparseDrop t _ e he)⟩
  · refine ⟨sparseRising_put t p.toNat v hp hr, fun e he => ?_⟩
    rcases mem_sparsePut t _ v e he with rfl | he
    · assumption
    · exact hall e he

theorem Table.nil_wf : Table.wf d ([] : Table α) = true := rfl

end Tables

end Sys2Proof.Machine
end

