-- ==== Sys2Proof/Laws/PerInstr.lean ====
section
/-! SUPPORT. The family of lemmas about each instruction as it is written in a word. -/

namespace Sys2Proof.Laws

/-- The low three bits of an instruction's word are its opcode number (R81). -/
def OpcodeBits.Statement (i : Instr) : Prop := (encode i).extractLsb' 0 3 = i.op.bits

theorem OpcodeBits.add (f : Fields) : OpcodeBits.Statement (.add f) := Sys2Proof.encode_low_bits _
theorem OpcodeBits.sub (f : Fields) : OpcodeBits.Statement (.sub f) := Sys2Proof.encode_low_bits _
theorem OpcodeBits.load (f : Fields) : OpcodeBits.Statement (.load f) := Sys2Proof.encode_low_bits _
theorem OpcodeBits.store (f : Fields) : OpcodeBits.Statement (.store f) := Sys2Proof.encode_low_bits _
theorem OpcodeBits.beq (f : Fields) : OpcodeBits.Statement (.beq f) := Sys2Proof.encode_low_bits _
theorem OpcodeBits.bne (f : Fields) : OpcodeBits.Statement (.bne f) := Sys2Proof.encode_low_bits _
theorem OpcodeBits.nop (f : Fields) : OpcodeBits.Statement (.nop f) := Sys2Proof.encode_low_bits _
theorem OpcodeBits.halt (f : Fields) : OpcodeBits.Statement (.halt f) := Sys2Proof.encode_low_bits _

end Sys2Proof.Laws
end

