-- ==== Sys2Proof/Laws/Predictor.lean ====
section
/-! SUPPORT. What predict and update of the predictor unit can change. -/

namespace Sys2Proof.Machine

section Predict
variable (k : BpKind) (b : Bpu) (p : Pos)

@[simp] theorem predictState_ob : (predictState k b p).ob = b.ob := by cases k <;> rfl
@[simp] theorem predictState_tb : (predictState k b p).tb = b.tb := by cases k <;> rfl
@[simp] theorem predictState_tOb : (predictState k b p).tOb = b.tOb := by cases k <;> rfl
@[simp] theorem predictState_tTb : (predictState k b p).tTb = b.tTb := by cases k <;> rfl
@[simp] theorem predictState_tCh : (predictState k b p).tCh = b.tCh := by cases k <;> rfl
@[simp] theorem predictState_bpCalls : (predictState k b p).bpCalls = countCall .bpCalls p b.bpCalls := by
  cases k <;> rfl

@[simp] theorem predictState_strategy : (predictState k b p).strategy = some k := by cases k <;> rfl

/-- A count below 2^64 - 1 grows by 1. -/
theorem countCall_of_ne (which : Config.CallCounter) (c : Count) (h : c ≠ BitVec.allOnes 64) :
    countCall which p c = c + 1 := if_neg h

/-- Everything predict can do, by strategy: the call is counted and its strategy kept, and the tournament also records and counts its
components. -/
theorem predictState_cases :
    (k ≠ .tournament ∧
      predictState k b p = { b with bpCalls := countCall .bpCalls p b.bpCalls, strategy := some k }) ∨
    (k = .tournament ∧ predictState k b p =
      { b with
        tLp1 := Table.set false b.tLp1 p (tournament1 b p)
        tLp2 := Table.set false b.tLp2 p (tournament2 b p)
        tCalls1 := countCall .tCalls1 p b.tCalls1
        tCalls2 := countCall .tCalls2 p b.tCalls2
        bpCalls := countCall .bpCalls p b.bpCalls
        strategy := some k }) := by
  cases k
  case tournament => exact .inr ⟨rfl, rfl⟩
  all_goals exact .inl ⟨by simp, rfl⟩

end Predict

section Update
variable (k : BpKind) (b : Bpu) (p : Pos) (t : Bool)

@[simp] theorem updateState_bpCalls : (updateState k b p t).bpCalls = b.bpCalls := by cases k <;> rfl
@[simp] theorem updateState_tCalls1 : (updateState k b p t).tCalls1 = b.tCalls1 := by cases k <;> rfl
@[simp] theorem updateState_tCalls2 : (updateState k b p t).tCalls2 = b.tCalls2 := by cases k <;> rfl
@[simp] theorem updateState_tLp1 : (updateState k b p t).tLp1 = b.tLp1 := by cases k <;> rfl
@[simp] theorem updateState_strategy : (updateState k b p t).strategy = b.strategy := by cases k <;> rfl
@[simp] theorem updateState_tLp2 : (updateState k b p t).tLp2 = b.tLp2 := by cases k <;> rfl

end Update

/-- predict keeps the canonical form of every table. -/
theorem predictState_wf (k : BpKind) (b : Bpu) (p : Pos) (h : b.wf = true) : (predictState k b p).wf = true := by
  simp only [Bpu.wf, Bool.and_eq_true] at h ⊢
  obtain ⟨⟨⟨⟨⟨⟨h1, h2⟩, h3⟩, h4⟩, h5⟩, h6⟩, h7⟩ := h
  obtain ⟨_, e⟩ | ⟨_, e⟩ := predictState_cases k b p <;> rw [e]
  · exact ⟨⟨⟨⟨⟨⟨h1, h2⟩, h3⟩, h4⟩, h5⟩, h6⟩, h7⟩
  · exact ⟨⟨⟨⟨⟨⟨h1, h2⟩, h3⟩, h4⟩, h5⟩, Table.set_wf _ _ _ _ h6⟩, Table.set_wf _ _ _ _ h7⟩

/-- update keeps the canonical form of every table. -/
theorem updateState_wf (k : BpKind) (b : Bpu) (p : Pos) (t : Bool) (h : b.wf = true) :
    (updateState k b p t).wf = true := by
  have h0 := h
  simp only [Bpu.wf, Bool.and_eq_true] at h
  obtain ⟨⟨⟨⟨⟨⟨h1, h2⟩, h3⟩, h4⟩, h5⟩, h6⟩, h7⟩ := h
  cases k
  case staticNt => exact h0
  case staticT => exact h0
  case oneBit =>
    simp only [updateState, Bpu.wf, Bool.and_eq_true]
    exact ⟨⟨⟨⟨⟨⟨Table.set_wf _ _ _ _ h1, h2⟩, h3⟩, h4⟩, h5⟩, h6⟩, h7⟩
  case twoBit =>
    simp only [updateState, Bpu.wf, Bool.and_eq_true]
    exact ⟨⟨⟨⟨⟨⟨h1, Table.set_wf _ _ _ _ h2⟩, h3⟩, h4⟩, h5⟩, h6⟩, h7⟩
  case tournament =>
    simp only [updateState, Bpu.wf, Bool.and_eq_true]
    exact ⟨⟨⟨⟨⟨⟨h1, h2⟩, Table.set_wf _ _ _ _ h3⟩, Table.set_wf _ _ _ _ h4⟩, Table.set_wf _ _ _ _ h5⟩, h6⟩, h7⟩

/-- The two calls of a cycle keep the canonical form. -/
theorem bpuCycle_wf (k : BpKind) (c : Option Pos) (u : Option (Pos × Bool)) (b : Bpu) (h : b.wf = true) :
    (bpuCycle k c u b).wf = true := by
  cases c <;> rcases u with _ | ⟨q, t⟩ <;>
    simp [bpuCycle, h, predictState_wf, updateState_wf]

end Sys2Proof.Machine
end

