-- ==== Sys2Proof/Laws/State.lean ====
section
/-! SUPPORT. What each update of State leaves in each field, and what each view of a latch value is: true by definition,
for simp. -/

namespace Sys2Proof.Machine

section Cycle
variable (o : Config.Oracle) (f : Option Instr) (s : State)

@[simp] theorem cycle_rst : (cycle o f s).rst = s.rst := rfl
@[simp] theorem cycle_bpRst : (cycle o f s).bpRst = s.bpRst := rfl
@[simp] theorem cycle_cfgFwdEn : (cycle o f s).cfgFwdEn = s.cfgFwdEn := rfl
@[simp] theorem cycle_cfgBpEn : (cycle o f s).cfgBpEn = s.cfgBpEn := rfl
@[simp] theorem cycle_cfgBpKind : (cycle o f s).cfgBpKind = s.cfgBpKind := rfl
@[simp] theorem cycle_cfgProgLen : (cycle o f s).cfgProgLen = s.cfgProgLen := rfl
@[simp] theorem cycle_rom : (cycle o f s).rom = s.rom := rfl
@[simp] theorem cycle_ifid : (cycle o f s).ifid = nextIfid o f s := rfl
@[simp] theorem cycle_idex : (cycle o f s).idex = nextIdex s := rfl
@[simp] theorem cycle_exmem : (cycle o f s).exmem = s.idex.latch := rfl
@[simp] theorem cycle_memwb : (cycle o f s).memwb = s.exmem := rfl
@[simp] theorem cycle_pc : (cycle o f s).pc = nextPc o s := rfl
@[simp] theorem cycle_halted : (cycle o f s).halted = nextHalted s := rfl
@[simp] theorem cycle_flush : (cycle o f s).flush = nextFlush o s := rfl
@[simp] theorem cycle_mCycles : (cycle o f s).mCycles = s.mCycles + 1 := rfl
@[simp] theorem cycle_mRetired : (cycle o f s).mRetired = nextRetired s := rfl
@[simp] theorem cycle_mRawStalls :
    (cycle o f s).mRawStalls = countIf (arm s == .rawStall) s.mRawStalls := rfl
@[simp] theorem cycle_mControlStalls :
    (cycle o f s).mControlStalls = countIf (arm s == .flush) s.mControlStalls := rfl
@[simp] theorem cycle_mBpPredictions :
    (cycle o f s).mBpPredictions = countIf (resolve o s.idex).isSome s.mBpPredictions := rfl
@[simp] theorem cycle_mBpMispredictions :
    (cycle o f s).mBpMispredictions = countIf (mispredict o s).isSome s.mBpMispredictions := rfl
@[simp] theorem cycle_bpu : (cycle o f s).bpu = nextBpu o s := rfl
@[simp] theorem cycle_inRun : (cycle o f s).inRun = true := rfl

@[simp] theorem cycle_attached : attached (cycle o f s) = attached s := rfl

end Cycle

section Resets
variable (s : State)

@[simp] theorem resetPe_rst : s.resetPe.rst = s.rst := rfl
@[simp] theorem resetPe_bpRst : s.resetPe.bpRst = s.bpRst := rfl
@[simp] theorem resetPe_cfgFwdEn : s.resetPe.cfgFwdEn = s.cfgFwdEn := rfl
@[simp] theorem resetPe_cfgBpEn : s.resetPe.cfgBpEn = s.cfgBpEn := rfl
@[simp] theorem resetPe_cfgBpKind : s.resetPe.cfgBpKind = s.cfgBpKind := rfl
@[simp] theorem resetPe_cfgProgLen : s.resetPe.cfgProgLen = s.cfgProgLen := rfl
@[simp] theorem resetPe_rom : s.resetPe.rom = s.rom := rfl
@[simp] theorem resetPe_ifid : s.resetPe.ifid = .bubble .empty := rfl
@[simp] theorem resetPe_idex : s.resetPe.idex = IdEx.reset := rfl
@[simp] theorem resetPe_exmem : s.resetPe.exmem = .bubble .empty := rfl
@[simp] theorem resetPe_memwb : s.resetPe.memwb = .bubble .empty := rfl
@[simp] theorem resetPe_pc : s.resetPe.pc = 0 := rfl
@[simp] theorem resetPe_halted : s.resetPe.halted = false := rfl
@[simp] theorem resetPe_flush : s.resetPe.flush = 0 := rfl
@[simp] theorem resetPe_mCycles : s.resetPe.mCycles = 0 := rfl
@[simp] theorem resetPe_mRetired : s.resetPe.mRetired = 0 := rfl
@[simp] theorem resetPe_mRawStalls : s.resetPe.mRawStalls = 0 := rfl
@[simp] theorem resetPe_mControlStalls : s.resetPe.mControlStalls = 0 := rfl
@[simp] theorem resetPe_mBpPredictions : s.resetPe.mBpPredictions = 0 := rfl
@[simp] theorem resetPe_mBpMispredictions : s.resetPe.mBpMispredictions = 0 := rfl
@[simp] theorem resetPe_bpu : s.resetPe.bpu = s.bpu := rfl
@[simp] theorem resetPe_inRun : s.resetPe.inRun = true := rfl

@[simp] theorem resetBpu_bpu : s.resetBpu.bpu = Bpu.reset := rfl
@[simp] theorem resetBpu_halted : s.resetBpu.halted = s.halted := rfl
@[simp] theorem resetBpu_inRun : s.resetBpu.inRun = s.inRun := rfl
theorem resetBpu_eq : s.resetBpu = { s with bpu := Bpu.reset } := rfl

@[simp] theorem endRun_inRun : s.endRun.inRun = false := rfl
@[simp] theorem endRun_halted : s.endRun.halted = s.halted := rfl
@[simp] theorem endRun_mCycles : s.endRun.mCycles = s.mCycles := rfl
@[simp] theorem endRun_bpu : s.endRun.bpu = s.bpu := rfl
theorem endRun_eq : s.endRun = { s with inRun := false } := rfl

@[simp] theorem directed_cfgBpEn : s.directed.cfgBpEn = s.cfgBpEn := rfl
@[simp] theorem directed_cfgProgLen : s.directed.cfgProgLen = s.cfgProgLen := rfl
@[simp] theorem directed_rom : s.directed.rom = s.rom := rfl
@[simp] theorem directed_ifid : s.directed.ifid = s.ifid := rfl
@[simp] theorem directed_idex : s.directed.idex = s.idex := rfl
@[simp] theorem directed_exmem : s.directed.exmem = s.exmem := rfl
@[simp] theorem directed_memwb : s.directed.memwb = s.memwb := rfl
@[simp] theorem directed_pc : s.directed.pc = s.pc := rfl
@[simp] theorem directed_halted : s.directed.halted = s.halted := rfl
@[simp] theorem directed_flush : s.directed.flush = s.flush := rfl
@[simp] theorem directed_mCycles : s.directed.mCycles = s.mCycles := rfl

/-- A bp_rst edge finds a legal kind, whatever the host drives: no strategy is called there. -/
theorem directed_kind : (BpKind.ofCode s.directed.cfgBpKind).isSome = true := by
  unfold State.directed
  dsimp only
  split <;> rfl

theorem afterBpReset_eq (t : State) :
    s.afterBpReset t = { t with cfgBpKind := s.cfgBpKind, bpu := Bpu.reset, inRun := s.inRun } := rfl

/-- A bp_rst edge is outside a run after a HALT, or once the host has ended the run. -/
theorem duringRun_eq_false : duringRun s = false ↔ s.halted = true ∨ s.inRun = false := by
  unfold duringRun
  cases s.halted <;> cases s.inRun <;> simp

/-- A reset edge in one line: PE's reset values, and BPU's when bp_rst is high too. -/
theorem resetEdge_eq : resetEdge s = { s.resetPe with bpu := if s.bpRst then Bpu.reset else s.bpu } := by
  unfold resetEdge
  split <;> rfl

end Resets

section Place
variable (s : State) (w : Word)

@[simp] theorem placeAtFetch_ifid : (placeAtFetch s w).ifid = s.ifid := rfl
@[simp] theorem placeAtFetch_idex : (placeAtFetch s w).idex = s.idex := rfl
@[simp] theorem placeAtFetch_exmem : (placeAtFetch s w).exmem = s.exmem := rfl
@[simp] theorem placeAtFetch_memwb : (placeAtFetch s w).memwb = s.memwb := rfl
@[simp] theorem placeAtFetch_pc : (placeAtFetch s w).pc = s.pc := rfl
@[simp] theorem placeAtFetch_halted : (placeAtFetch s w).halted = s.halted := rfl
@[simp] theorem placeAtFetch_flush : (placeAtFetch s w).flush = s.flush := rfl
@[simp] theorem placeAtFetch_bpu : (placeAtFetch s w).bpu = s.bpu := rfl
@[simp] theorem placeAtFetch_rst : (placeAtFetch s w).rst = s.rst := rfl
@[simp] theorem placeAtFetch_bpRst : (placeAtFetch s w).bpRst = s.bpRst := rfl
@[simp] theorem placeAtFetch_arm : arm (placeAtFetch s w) = arm s := rfl
@[simp] theorem placeAtFetch_fetchAddr : fetchAddr (placeAtFetch s w) = fetchAddr s := rfl

end Place

section Views
variable (i : Instr) (p : Pos) (b : Bubble)

@[simp] theorem dst_instr : (Latch.instr i p).dst = (roleOf i).dst := rfl
@[simp] theorem dst_bubble : (Latch.bubble b).dst = none := rfl
@[simp] theorem src1_instr : (Latch.instr i p).src1 = (roleOf i).src1 := rfl
@[simp] theorem src1_bubble : (Latch.bubble b).src1 = none := rfl
@[simp] theorem src2_instr : (Latch.instr i p).src2 = (roleOf i).src2 := rfl
@[simp] theorem src2_bubble : (Latch.bubble b).src2 = none := rfl
@[simp] theorem late_instr : (Latch.instr i p).late = (roleOf i).late := rfl
@[simp] theorem late_bubble : (Latch.bubble b).late = false := rfl
@[simp] theorem isBranch_instr : (Latch.instr i p).isBranch = (roleOf i).branch := rfl
@[simp] theorem isBranch_bubble : (Latch.bubble b).isBranch = false := rfl
@[simp] theorem retires_instr : (Latch.instr i p).retires = ((roleOf i).wb == .retires) := rfl
@[simp] theorem retires_bubble : (Latch.bubble b).retires = false := rfl
@[simp] theorem halts_instr : (Latch.instr i p).halts = ((roleOf i).wb == .halts) := rfl
@[simp] theorem halts_bubble : (Latch.bubble b).halts = false := rfl

@[simp] theorem plain_latch (l : Latch) : (IdEx.plain l).latch = l := rfl
@[simp] theorem plain_predV (l : Latch) : (IdEx.plain l).predV = false := rfl
@[simp] theorem plain_predT (l : Latch) : (IdEx.plain l).predT = false := rfl

@[simp] theorem countIf_true (c : Count) : countIf true c = c + 1 := rfl
@[simp] theorem countIf_false (c : Count) : countIf false c = c := rfl

/-! Comparisons of the names, for simp. -/

@[simp] theorem flush_beq_rawStall : (Arm.flush == Arm.rawStall) = false := rfl
@[simp] theorem rawStall_beq_flush : (Arm.rawStall == Arm.flush) = false := rfl
@[simp] theorem advance_beq_flush : (Arm.advance == Arm.flush) = false := rfl
@[simp] theorem advance_beq_rawStall : (Arm.advance == Arm.rawStall) = false := rfl
@[simp] theorem nothing_beq_retires : (WbEffect.nothing == WbEffect.retires) = false := rfl
@[simp] theorem halts_beq_retires : (WbEffect.halts == WbEffect.retires) = false := rfl
@[simp] theorem retires_beq_halts : (WbEffect.retires == WbEffect.halts) = false := rfl
@[simp] theorem nothing_beq_halts : (WbEffect.nothing == WbEffect.halts) = false := rfl

end Views

end Sys2Proof.Machine
end

