-- ==== Sys2Proof/Laws/Pipeline.lean ====
section
/-! SUPPORT. What the operations of one cycle can do, each said once. -/

namespace Sys2Proof.Machine

/-- The arms of a cycle, with what makes each one happen. -/
theorem arm_cases (s : State) :
    (arm s = .flush ∧ s.flush ≠ 0) ∨
    (arm s = .rawStall ∧ s.flush = 0 ∧ (hazard s).stall = true) ∨
    (arm s = .advance ∧ s.flush = 0 ∧ (hazard s).stall = false) := by
  unfold arm flushing
  by_cases hf : s.flush = 0
  · cases hs : (hazard s).stall <;> simp [hf]
  · have : (s.flush != 0) = true := by simpa using hf
    simp only [this, if_true]
    exact .inl ⟨trivial, hf⟩

/-- A bubble in ID never stalls. -/
theorem hazard_bubble (s : State) (b : Bubble) (h : s.ifid = .bubble b) : (hazard s).stall = false := by
  have hd : ∀ p : Latch, dependsOn (.bubble b) p = false := by
    intro p
    unfold dependsOn
    split <;> simp [Latch.consumes]
  simp [hazard, detect, hazardStall, h, hd]

/-- A predict call is made exactly when a branch leaves ID by normal advance with a predictor attached. -/
theorem predictCall_eq_some (s : State) (c : PredictCall) :
    predictCall s = some c ↔
      arm s = .advance ∧ ∃ i, s.ifid = .instr i c.pos ∧ (roleOf i).branch = true ∧ attached s = some c.kind
        ∧ i.fields.imm = c.imm := by
  obtain ⟨k, p, imm⟩ := c
  unfold predictCall
  cases ha : arm s with
  | flush => simp
  | rawStall => simp
  | advance =>
    cases hk : attached s with
    | none => simp [callFor]
    | some k' =>
      cases hl : s.ifid with
      | bubble b => simp [callFor]
      | instr i p' =>
        cases hb : (roleOf i).branch with
        | false =>
          simp only [callFor, hb, Bool.false_eq_true, if_false, reduceCtorEq, false_iff, not_and, true_implies]
          rintro ⟨j, hj, hbj, _⟩
          cases hj
          simp [hb] at hbj
        | true =>
          simp only [callFor, hb, if_true, Option.some.injEq, PredictCall.mk.injEq, true_and, Latch.instr.injEq]
          constructor
          · rintro ⟨rfl, rfl, rfl⟩
            exact ⟨i, ⟨rfl, rfl⟩, hb, rfl, rfl⟩
          · rintro ⟨j, ⟨rfl, rfl⟩, _, rfl, rfl⟩
            exact ⟨rfl, rfl, rfl⟩

/-- Without a predictor attached no predict call is made. -/
theorem predictCall_of_attached_none (s : State) (h : attached s = none) : predictCall s = none := by
  unfold predictCall
  cases arm s <;> simp [h, callFor]

/-- A bubble in ID makes no predict call. -/
theorem predictCall_of_bubble (s : State) (b : Bubble) (h : s.ifid = .bubble b) : predictCall s = none := by
  unfold predictCall
  cases arm s <;> cases attached s <;> simp [h, callFor]

/-- Anything but a branch in ID makes no predict call. -/
theorem predictCall_of_not_branch (s : State) (h : s.ifid.isBranch = false) : predictCall s = none := by
  unfold predictCall
  cases hl : s.ifid with
  | bubble b => cases arm s <;> cases attached s <;> simp [callFor]
  | instr i p =>
    simp only [hl, isBranch_instr] at h
    cases arm s <;> cases attached s <;> simp [callFor, h]

/-- The predict call of a branch that leaves ID. -/
theorem predictCall_of_branch (s : State) (i : Instr) (p : Pos) (k : BpKind) (ha : arm s = .advance)
    (hi : s.ifid = .instr i p) (hb : (roleOf i).branch = true) (hk : attached s = some k) :
    predictCall s = some { kind := k, pos := p, imm := i.fields.imm } := by
  simp [predictCall, ha, callFor, hi, hb, hk]

/-- A fetch is made exactly in normal advance, from an address in the program, when no HALT has retired. -/
theorem fetchSlot_eq_some (s : State) (a : Pos) :
    fetchSlot s = some a ↔
      arm s = .advance ∧ inProgram (fetchAddr s) s.cfgProgLen = true ∧ nextHalted s = false
        ∧ a = (fetchAddr s).setWidth 16 := by
  unfold fetchSlot
  constructor
  · intro h
    split at h
    · split at h
      · rename_i ha hc
        simp only [Bool.and_eq_true, Bool.not_eq_true'] at hc
        cases h
        exact ⟨ha, hc.1, hc.2, rfl⟩
      · cases h
    · cases h
    · cases h
  · rintro ⟨ha, hp, hh, rfl⟩
    simp [ha, hp, hh]

/-- The bounds test in integers. -/
theorem inProgram_iff (a : Addr) (n : BitVec 17) :
    inProgram a n = true ↔ 0 ≤ a.toInt ∧ a.toInt < (n.toNat : Int) := by
  simp [inProgram]

/-- An address in a program of at most PMAX words is a position, and counting on from it gives its fall-through. -/
theorem inProgram_pos (a : Addr) (n : BitVec 17) (h : inProgram a n = true) (hn : n.toNat ≤ Config.pmax) :
    (a.setWidth 16 : Pos).toNat = a.toNat ∧ a.toNat < n.toNat ∧ a + 1 = fallthrough (a.setWidth 16) := by
  obtain ⟨h0, h1⟩ := (inProgram_iff a n).1 h
  simp only [Config.pmax] at hn
  have hlt := a.isLt
  rw [BitVec.toInt_eq_toNat_cond] at h0 h1
  have hs : a.toNat < 65536 := by split at h0 <;> split at h1 <;> omega
  refine ⟨?_, ?_, ?_⟩
  · simp [BitVec.toNat_setWidth]
    omega
  · split at h1 <;> omega
  · apply BitVec.eq_of_toNat_eq
    simp [fallthrough, BitVec.toNat_add, BitVec.toNat_setWidth]
    omega

/-- A branch resolves exactly when one is in EX; what it finds (R201). -/
theorem resolve_eq_some (o : Config.Oracle) (x : IdEx) (r : Resolution) :
    resolve o x = some r ↔
      ∃ i, x.latch = .instr i r.pos ∧ (roleOf i).branch = true ∧ r.actual = o i r.pos
        ∧ r.guess = (x.predV && x.predT) ∧ r.correct = continueAt r.pos i.fields.imm r.actual := by
  unfold resolve
  constructor
  · intro h
    split at h
    · split at h
      · cases h
        exact ⟨_, ‹_›, ‹_›, rfl, rfl, rfl⟩
      · cases h
    · cases h
  · rintro ⟨i, hl, hb, ha, hg, hc⟩
    obtain ⟨p, a, g, c⟩ := r
    simp_all

theorem resolve_isSome (o : Config.Oracle) (x : IdEx) : (resolve o x).isSome = x.latch.isBranch := by
  unfold resolve
  cases x.latch with
  | instr i p => cases hb : (roleOf i).branch <;> simp [hb]
  | bubble b => rfl

/-- A misprediction is a resolution whose guess is not the outcome (R203). -/
theorem mispredict_eq_some (o : Config.Oracle) (s : State) (r : Resolution) :
    mispredict o s = some r ↔ resolve o s.idex = some r ∧ r.guess ≠ r.actual := by
  unfold mispredict
  constructor
  · intro h
    split at h
    · split at h
      · cases h
      · cases h
        exact ⟨‹_›, ‹_›⟩
    · cases h
  · rintro ⟨h, hne⟩
    simp [h, hne]

/-- Without a branch in EX nothing resolves. -/
theorem resolve_of_not_branch (o : Config.Oracle) (x : IdEx) (h : x.latch.isBranch = false) : resolve o x = none := by
  have := resolve_isSome o x
  rw [h] at this
  simpa using this

theorem mispredict_of_not_branch (o : Config.Oracle) (s : State) (h : s.idex.latch.isBranch = false) :
    mispredict o s = none := by
  simp [mispredict, resolve_of_not_branch o s.idex h]

/-- In normal advance and in a RAW stall no countdown is active. -/
theorem flush_of_arm (s : State) (h : arm s ≠ .flush) : s.flush = 0 := by
  rcases arm_cases s with ⟨ha, _⟩ | ⟨_, hz, _⟩ | ⟨_, hz, _⟩
  · exact absurd ha h
  · exact hz
  · exact hz

/-- No fetch is made outside normal advance. -/
theorem fetchSlot_of_arm (s : State) (h : arm s ≠ .advance) : fetchSlot s = none := by
  unfold fetchSlot
  cases ha : arm s <;> simp_all

/-- Where no fetch is made the instruction offered does not matter. -/
theorem cycle_of_no_fetch (o : Config.Oracle) (f : Option Instr) (s : State) (h : fetchSlot s = none) :
    cycle o f s = cycle o none s := by
  simp only [cycle, nextIfid, h]

/-- Without predict and update BPU keeps its state. -/
theorem nextBpu_of_no_calls (o : Config.Oracle) (s : State) (hp : predictCall s = none) (hr : resolve o s.idex = none) :
    nextBpu o s = s.bpu := by
  unfold nextBpu
  split
  · simp [hp, updateCall, hr, bpuCycle]
  · rfl

/-- What is in IFID after a cycle: a squash, a held value, a fetched instruction or an empty slot. -/
theorem nextIfid_cases (o : Config.Oracle) (f : Option Instr) (s : State) :
    ((mispredict o s).isSome ∧ nextIfid o f s = .bubble .flush) ∨
    (mispredict o s = none ∧ arm s ≠ .advance ∧ nextIfid o f s = s.ifid) ∨
    (mispredict o s = none ∧ arm s = .advance ∧
      ((∃ a i, fetchSlot s = some a ∧ f = some i ∧ nextIfid o f s = .instr i a) ∨
       ((fetchSlot s = none ∨ f = none) ∧ nextIfid o f s = .bubble .empty))) := by
  unfold nextIfid
  cases hm : mispredict o s with
  | some r => exact .inl (by simp)
  | none =>
    cases ha : arm s with
    | flush => exact .inr (.inl (by simp))
    | rawStall => exact .inr (.inl (by simp))
    | advance =>
      refine .inr (.inr ⟨rfl, rfl, ?_⟩)
      cases hs : fetchSlot s with
      | none => exact .inr (by simp)
      | some a =>
        cases f with
        | none => exact .inr (by simp)
        | some i => exact .inl ⟨a, i, rfl, rfl, rfl⟩

/-- What is in IDEX after a cycle: a bubble with its arm's label, or what left ID, with its prediction where one was
made. -/
theorem nextIdex_cases (s : State) :
    (arm s = .flush ∧ nextIdex s = IdEx.plain (.bubble .flush)) ∨
    (arm s = .rawStall ∧ nextIdex s = IdEx.plain (.bubble .stall)) ∨
    (arm s = .advance ∧
      ((predictCall s = none ∧ nextIdex s = IdEx.plain s.ifid) ∨
       ∃ c, predictCall s = some c ∧
         nextIdex s = { latch := s.ifid, predV := true, predT := predictTaken c.kind s.bpu c.pos })) := by
  unfold nextIdex predicted
  cases ha : arm s with
  | flush => exact .inl (by simp)
  | rawStall => exact .inr (.inl (by simp))
  | advance =>
    refine .inr (.inr ⟨rfl, ?_⟩)
    cases hp : predictCall s with
    | none => exact .inl (by simp)
    | some c => exact .inr ⟨c, rfl, by simp⟩

/-- What is in pc after a cycle. -/
theorem nextPc_cases (o : Config.Oracle) (s : State) :
    (∃ r, mispredict o s = some r ∧ nextPc o s = r.correct) ∨
    (mispredict o s = none ∧ ∃ a, fetchSlot s = some a ∧ nextPc o s = fetchAddr s + 1) ∨
    (mispredict o s = none ∧ fetchSlot s = none ∧ nextPc o s = s.pc) := by
  unfold nextPc
  cases hm : mispredict o s with
  | some r => exact .inl ⟨r, rfl, rfl⟩
  | none =>
    cases hs : fetchSlot s with
    | some a => exact .inr (.inl ⟨rfl, a, rfl, rfl⟩)
    | none => exact .inr (.inr ⟨rfl, rfl, rfl⟩)

/-- BPU after a cycle keeps the canonical form of its tables. -/
theorem nextBpu_wf (o : Config.Oracle) (s : State) (h : s.bpu.wf = true) : (nextBpu o s).wf = true := by
  unfold nextBpu
  split
  · exact bpuCycle_wf _ _ _ _ h
  · exact h

/-- Everything the contract rules out. -/
theorem contractBreach_eq_none (s : State) :
    contractBreach s = none ↔
      (s.cfgBpEn = true → (BpKind.ofCode s.cfgBpKind).isSome = true) ∧ s.cfgProgLen.toNat ≤ Config.pmax
        ∧ s.mCycles ≠ BitVec.allOnes 64 := by
  unfold contractBreach
  cases hb : s.cfgBpEn <;> cases hk : BpKind.ofCode s.cfgBpKind <;>
    simp only [Bool.true_and, Bool.false_and, Option.isNone_none, Option.isNone_some, if_true, if_false,
      Bool.false_eq_true, Option.isSome_none, Option.isSome_some] <;>
    (try split) <;> (try split) <;> simp_all

/-- Everything a clock edge of PE can do outside a reset. -/
theorem runCycle_cases (f : Option Instr) (s : State) :
    (s.halted = true ∧ runCycle f s = .next s) ∨
    (s.halted = false ∧ ∃ r, contractBreach s = some r ∧ runCycle f s = .refused r) ∨
    (s.halted = false ∧ contractBreach s = none ∧ runCycle f s = .next (cycle Config.branchOracle f s)) := by
  unfold runCycle
  cases hh : s.halted with
  | true => exact .inl ⟨rfl, rfl⟩
  | false =>
    cases hc : contractBreach s with
    | some r => exact .inr (.inl ⟨rfl, r, rfl, rfl⟩)
    | none => exact .inr (.inr ⟨rfl, rfl, rfl⟩)

end Sys2Proof.Machine
end

