-- ==== Sys2Proof/Laws/Step.lean ====
section
/-! SUPPORT. What exec and step can do, said once. -/

namespace Sys2Proof.Machine

/-- Every instruction's meaning is the cycle in which the ROM port delivers it. -/
theorem exec_eq_runCycle (i : Instr) (s : State) : exec i s = runCycle (some i) s := by
  cases i <;> rfl

/-- In the contract, a core that is not halted runs the cycle. -/
theorem exec_next (i : Instr) (s : State) (hh : s.halted = false) (hc : contractBreach s = none) :
    exec i s = .next (cycle Config.branchOracle (some i) s) := by
  rw [exec_eq_runCycle]
  simp [runCycle, hh, hc]

theorem runCycle_none_next (s : State) (hh : s.halted = false) (hc : contractBreach s = none) :
    runCycle none s = .next (cycle Config.branchOracle none s) := by
  simp [runCycle, hh, hc]

/-- What the ROM port offers, by the fetch of the cycle. -/
theorem fetchOffer_cases (s : State) :
    (fetchSlot s = none ∧ fetchOffer s = .noFetch) ∨
    (∃ a w, fetchSlot s = some a ∧ Memory.read s.rom a.toNat = some w ∧ fetchOffer s = .word w) ∨
    (∃ a, fetchSlot s = some a ∧ Memory.read s.rom a.toNat = none ∧ fetchOffer s = .unloaded) := by
  unfold fetchOffer
  cases hs : fetchSlot s with
  | none => exact .inl ⟨rfl, rfl⟩
  | some a =>
    cases hr : Memory.read s.rom a.toNat with
    | some w => exact .inr (.inl ⟨a, w, rfl, hr, by simp [hr]⟩)
    | none => exact .inr (.inr ⟨a, rfl, hr, by simp [hr]⟩)

theorem executes_iff (s : State) : executes s = true ↔ s.rst = false ∧ s.bpRst = false ∧ s.halted = false := by
  simp [executes, and_assoc]

/-- A step of a cycle that makes no fetch. -/
theorem step_of_no_fetch (s : State) (he : executes s = true) (hc : contractBreach s = none) (hs : fetchSlot s = none) :
    step s = .next (cycle Config.branchOracle none s) := by
  obtain ⟨h1, h2, h3⟩ := (executes_iff s).1 he
  simp [step, h1, h2, fetchOffer, hs, runCycle_none_next s h3 hc]

/-- A step of a cycle that fetches a word. -/
theorem step_of_fetch (s : State) (a : Pos) (w : Word) (he : executes s = true) (hc : contractBreach s = none)
    (hs : fetchSlot s = some a) (hw : Memory.read s.rom a.toNat = some w) :
    step s = .next (cycle Config.branchOracle (some (decode w)) s) := by
  obtain ⟨h1, h2, h3⟩ := (executes_iff s).1 he
  simp [step, h1, h2, fetchOffer, hs, hw, exec_next _ s h3 hc]

/-- A cycle with what the ROM port delivers, where it answers a next state: with the decoding of the ROM word at the address
fetched, or with no fetch. -/
theorem portCycle_next_cases (s t : State) (hh : s.halted = false) (h : portCycle s = .next t) :
    contractBreach s = none ∧
      ((fetchSlot s = none ∧ t = cycle Config.branchOracle none s) ∨
       ∃ a w, fetchSlot s = some a ∧ Memory.read s.rom a.toNat = some w ∧
         t = cycle Config.branchOracle (some (decode w)) s) := by
  unfold portCycle at h
  have key : ∀ f, runCycle f s = .next t → contractBreach s = none ∧ t = cycle Config.branchOracle f s := by
    intro f h
    rcases runCycle_cases f s with ⟨hx, _⟩ | ⟨_, r, _, e⟩ | ⟨_, hc, e⟩
    · simp [hh] at hx
    · simp [e] at h
    · rw [e] at h
      cases h
      exact ⟨hc, rfl⟩
  rcases fetchOffer_cases s with ⟨hs, ho⟩ | ⟨a, w, hs, hw, ho⟩ | ⟨a, hs, hw, ho⟩ <;> simp only [ho] at h
  · exact ⟨(key _ h).1, .inl ⟨hs, (key _ h).2⟩⟩
  · exact ⟨(key _ h).1, .inr ⟨a, w, hs, hw, (key _ h).2⟩⟩
  · cases h

/-- Everything a step that answers a next state can have done: a reset of PE; outside a run a reset of BPU, with PE's cycle,
within the contract, beside it unless the core is halted; nothing in the halted state; or one cycle, with the decoding of the ROM word at the address
fetched or with no fetch. -/
theorem step_next_cases (s t : State) (h : step s = .next t) :
    (s.rst = true ∧ t = resetEdge s) ∨
    (s.rst = false ∧ s.bpRst = true ∧ duringRun s = false ∧
      ((s.halted = true ∧ t = s.resetBpu) ∨
       (s.halted = false ∧ contractBreach s = none ∧ ∃ u, portCycle s.directed = .next u ∧ t = s.afterBpReset u))) ∨
    (s.rst = false ∧ s.bpRst = false ∧ s.halted = true ∧ t = s) ∨
    (s.rst = false ∧ s.bpRst = false ∧ s.halted = false ∧ contractBreach s = none ∧
      ((fetchSlot s = none ∧ t = cycle Config.branchOracle none s) ∨
       ∃ a w, fetchSlot s = some a ∧ Memory.read s.rom a.toNat = some w ∧
         t = cycle Config.branchOracle (some (decode w)) s)) := by
  unfold step at h
  cases hr : s.rst with
  | true =>
    simp only [hr, if_true] at h
    exact .inl ⟨rfl, by cases h; rfl⟩
  | false =>
    cases hb : s.bpRst with
    | true =>
      simp only [hr, hb, if_true, Bool.false_eq_true, if_false, bpResetEdge] at h
      split at h
      · cases h
      · rename_i hd
        refine .inr (.inl ⟨rfl, rfl, by simpa using hd, ?_⟩)
        split at h
        · exact .inl ⟨‹_›, by cases h; rfl⟩
        · refine .inr ⟨by simpa using ‹¬s.halted = true›, ?_⟩
          cases hc : contractBreach s with
          | some r => simp [hc] at h
          | none =>
            cases hp : portCycle s.directed with
            | next u =>
              simp only [hc, hp, mapNext] at h
              exact ⟨rfl, u, rfl, by cases h; rfl⟩
            | fault r => simp [hc, hp, mapNext] at h
            | refused r => simp [hc, hp, mapNext] at h
    | false =>
      simp only [hr, hb, Bool.false_eq_true, if_false] at h
      rcases fetchOffer_cases s with ⟨hs, ho⟩ | ⟨a, w, hs, hw, ho⟩ | ⟨a, hs, hw, ho⟩
      · simp only [ho] at h
        rcases runCycle_cases none s with ⟨hh, e⟩ | ⟨hh, r, hc, e⟩ | ⟨hh, hc, e⟩ <;> rw [e] at h
        · exact .inr (.inr (.inl ⟨rfl, rfl, hh, by cases h; rfl⟩))
        · cases h
        · exact .inr (.inr (.inr ⟨rfl, rfl, hh, hc, .inl ⟨hs, by cases h; rfl⟩⟩))
      · simp only [ho, exec_eq_runCycle] at h
        rcases runCycle_cases (some (decode w)) s with ⟨hh, e⟩ | ⟨hh, r, hc, e⟩ | ⟨hh, hc, e⟩ <;> rw [e] at h
        · exact .inr (.inr (.inl ⟨rfl, rfl, hh, by cases h; rfl⟩))
        · cases h
        · exact .inr (.inr (.inr ⟨rfl, rfl, hh, hc, .inr ⟨a, w, hs, hw, by cases h; rfl⟩⟩))
      · simp only [ho] at h
        cases h

/-- The step of a cycle: the fetched instruction is the decoding of the word at the address fetched. -/
theorem step_of_executes (s t : State) (he : executes s = true) (h : step s = .next t) :
    contractBreach s = none ∧ ∃ f, t = cycle Config.branchOracle f s ∧
      (∀ a, fetchSlot s = some a → ∃ w, Memory.read s.rom a.toNat = some w ∧ f = some (decode w)) := by
  obtain ⟨h1, h2, h3⟩ := (executes_iff s).1 he
  rcases step_next_cases s t h with ⟨e, _⟩ | ⟨_, e, _⟩ | ⟨_, _, e, _⟩ | ⟨_, _, _, hc, hf⟩
  · simp [h1] at e
  · simp [h2] at e
  · simp [h3] at e
  · rcases hf with ⟨hs, rfl⟩ | ⟨a, w, hs, hw, rfl⟩
    · exact ⟨hc, none, rfl, fun a ha => by simp [hs] at ha⟩
    · refine ⟨hc, some (decode w), rfl, fun b hb => ⟨w, ?_, rfl⟩⟩
      rw [hs] at hb
      cases hb
      exact hw

end Sys2Proof.Machine
end

