-- ==== Sys2Proof/Laws/Safety.lean ====
section
/-! SUPPORT. The terms of the statements: room in the contract, the pipe after several steps, the parts of the invariants. -/

namespace Sys2Proof.Machine

/-- Room for one more cycle is the contract. -/
theorem contract_of_roomFor (k : Nat) (s : State) (h : roomFor k s = true) : contractBreach s = none := by
  simp only [roomFor, Bool.and_eq_true, Option.isNone_iff_eq_none] at h
  exact h.1

/-- A cycle uses up one of the cycles there is room for. -/
theorem roomFor_cycle (o : Config.Oracle) (f : Option Instr) (k : Nat) (s : State) (hk : 2 ≤ k) (h : roomFor k s = true) :
    roomFor (k - 1) (cycle o f s) = true := by
  simp only [roomFor, Bool.and_eq_true, Option.isNone_iff_eq_none, decide_eq_true_eq, contractBreach_eq_none] at h ⊢
  obtain ⟨⟨h1, h2, h3⟩, h4⟩ := h
  have hn : (s.mCycles + 1).toNat = s.mCycles.toNat + 1 := by
    simp [BitVec.toNat_add]
    omega
  simp only [cycle_cfgBpEn, cycle_cfgBpKind, cycle_cfgProgLen, cycle_mCycles, hn]
  refine ⟨⟨h1, h2, fun e => ?_⟩, by omega⟩
  have := congrArg BitVec.toNat e
  rw [hn] at this
  simp at this
  omega

/-- A cycle in which no HALT retires is followed by another cycle. -/
theorem executes_cycle (o : Config.Oracle) (f : Option Instr) (s : State) (h : executes s = true)
    (hw : s.memwb.halts = false) : executes (cycle o f s) = true := by
  obtain ⟨h1, h2, h3⟩ := (executes_iff s).1 h
  exact (executes_iff _).2 ⟨h1, h2, by simp [nextHalted, h3, hw]⟩

theorem run_zero (s : State) : Host.Core.run core 0 s = .next s := rfl

/-- A run of one more step. -/
theorem run_succ (k : Nat) (s t : State) (h : step s = .next t) :
    Host.Core.run core (k + 1) s = Host.Core.run core k t := by
  have : core.step s = .next t := h
  simp [Host.Core.run, this]

/-- An address in the program holds a word, when the host loaded the program. -/
theorem romLoaded_read (s : State) (a : Pos) (h : romLoaded s) (hc : contractBreach s = none) (hs : fetchSlot s = some a) :
    ∃ w, Memory.read s.rom a.toNat = some w := by
  obtain ⟨_, hp, _, rfl⟩ := (fetchSlot_eq_some s a).1 hs
  have hn := ((contractBreach_eq_none s).1 hc).2.1
  obtain ⟨e, hlt, _⟩ := inProgram_pos _ _ hp hn
  exact Option.isSome_iff_exists.1 (h _ (by rw [e]; exact hlt))

/-- A cycle whose program is loaded runs. -/
theorem step_of_romLoaded (s : State) (h : romLoaded s) (he : executes s = true) (hc : contractBreach s = none) :
    ∃ f, step s = .next (cycle Config.branchOracle f s) ∧
      (∀ a, fetchSlot s = some a → ∃ w, Memory.read s.rom a.toNat = some w ∧ f = some (decode w)) := by
  cases hs : fetchSlot s with
  | none => exact ⟨none, step_of_no_fetch s he hc hs, fun a ha => by simp at ha⟩
  | some a =>
    obtain ⟨w, hw⟩ := romLoaded_read s a h hc hs
    refine ⟨some (decode w), step_of_fetch s a w he hc hs hw, fun b hb => ⟨w, ?_, rfl⟩⟩
    cases hb
    exact hw

/-- A latch value that is no instruction is a bubble. -/
theorem kind_ne_instr (l : Latch) : l.kind ≠ 1 ↔ ∃ b, l = .bubble b := by
  cases l with
  | bubble b => cases b <;> simp [Latch.kind]
  | instr i p => simp [Latch.kind]

/-- The engine's invariant, part by part. -/
theorem engineInv_iff (s : State) :
    engineInv s = true ↔ pcAgrees s = true ∧ flushHoldsBubble s = true ∧ flushLegal s = true ∧ metricsBounded s = true ∧
      recordConsistent s = true ∧ ifidLabelLegal s = true := by
  simp [engineInv, and_assoc]

theorem machineInv_iff (s : State) :
    machineInv s = true ↔ engineInv s = true ∧ Memory.wf s.rom = true ∧ s.bpu.wf = true ∧ latchesFromRom s = true := by
  simp [machineInv, and_assoc]

/-- BPU after a cycle is what this cycle's predict call leaves, trained by the branch in EX. -/
theorem nextBpu_eq (o : Config.Oracle) (s : State) :
    nextBpu o s = match attached s, resolve o s.idex with
      | some k, some r => updateState k (bpuPredicted s) r.pos r.actual
      | _, _ => bpuPredicted s := by
  unfold nextBpu bpuPredicted
  cases hat : attached s with
  | none => simp [predictCall_of_attached_none s hat]
  | some k =>
    have hk : ∀ c, predictCall s = some c → c.kind = k := by
      intro c h
      obtain ⟨_, i, _, _, h2, _⟩ := (predictCall_eq_some s c).1 h
      simpa [hat, eq_comm] using h2
    cases hr : resolve o s.idex <;> cases hp : predictCall s <;> simp [updateCall, hat, hr, bpuCycle]
    · rw [hk _ hp]
    · rw [hk _ hp]

/-- A cycle without a misprediction leaves IFID, pc and the countdown to its arm and its fetch. -/
theorem fetchUndisturbed_cycle (o : Config.Oracle) (i : Instr) (s : State) (hm : mispredict o s = none) :
    fetchUndisturbed i s (cycle o (some i) s) := by
  refine ⟨by simp [nextFlush, hm], fun h => ?_, fun h a hs => ?_, fun h hs => ?_⟩
  · have := fetchSlot_of_arm s h
    cases ha : arm s <;> simp_all [nextIfid, nextPc]
  · simp [nextIfid, nextPc, hm, h, hs]
  · simp [nextIfid, nextPc, hm, h, hs]

/-- A reset edge meets the engine's invariant, whatever PE held before. -/
theorem resetEdge_engineInv (s : State) : engineInv (resetEdge s) = true := by
  rw [resetEdge_eq]
  simp [engineInv, pcAgrees, flushHoldsBubble, flushing, flushLegal, metricsBounded, recordConsistent, ifidLabelLegal,
    State.resetPe, IdEx.reset]

end Sys2Proof.Machine
end

