-- ==== Sys2Proof/Tests/Slice0.lean ====
section
/-! SUPPORT. Tests, each a named theorem. Expected values are those of spec/95_test_vectors.md, named at each test, or
follow by hand from the rule named. A theorem witness_X shows that the hypotheses of the statement X can be met. -/

namespace Sys2Proof.Tests

open Sys2Proof.Machine

/-! Small instructions and states. -/

def addI (rd rs1 rs2 : Reg) : Instr := .add ⟨.of rd, .of rs1, .of rs2, 0, 0⟩
def subI (rd rs1 rs2 : Reg) : Instr := .sub ⟨.of rd, .of rs1, .of rs2, 0, 0⟩
def loadI (rd rs1 : Reg) : Instr := .load ⟨.of rd, .of rs1, .absent, 0, 0⟩
def storeI (rs1 rs2 : Reg) : Instr := .store ⟨.absent, .of rs1, .of rs2, 0, 0⟩
def branchF (imm : Imm) : Fields := ⟨.absent, .of 0, .of 0, imm, 0⟩
def noF : Fields := ⟨.absent, .absent, .absent, 0, 0⟩
def nopI : Instr := .nop noF
def haltI : Instr := .halt noF
def gap : Latch := .bubble .empty

/-- The machine after reset with a program placed. -/
def prog (ws : List Word) : State :=
  { State.reset with cfgProgLen := BitVec.ofNat 17 ws.length, rom := Memory.ofWords 0 ws }

/-- A program of n NOP words, with the given latches, and pc at address 2. -/
def pipe (n : Nat) (ifid ex mem wb : Latch) : State :=
  { prog (List.replicate n (encode nopI)) with
    ifid := ifid, idex := IdEx.plain ex, exmem := mem, memwb := wb, pc := 2 }

/-- A state with a predictor of a given kind code attached. -/
def attach (k : BitVec 3) (s : State) : State := { s with cfgBpEn := true, cfgBpKind := k }

/-- A state with forwarding enabled. -/
def forwarding (s : State) : State := { s with cfgFwdEn := true }

def nextOf : Host.Outcome State Fault Refusal → Option State
  | .next t => some t
  | .fault _ => none
  | .refused _ => none

/-! Decoding: section 2.1 of 95_test_vectors.md, each word as the spec writes it out. -/

theorem test_decode_add : decode 0x00000000008E2840 = .add ⟨.of 1, .of 2, .of 3, 0, 0⟩ := by decide
theorem test_decode_sub : decode 0x0001000000FE0FC1 = .sub ⟨.of 31, .of 0, .of 31, 0, 1⟩ := by decide
theorem test_decode_load : decode 0x0002FFFC000289C2 = .load ⟨.of 7, .of 8, .absent, -4, 2⟩ := by decide
theorem test_decode_store : decode 0x0003000C00AA9003 = .store ⟨.absent, .of 9, .of 10, 12, 3⟩ := by decide
theorem test_decode_beq : decode 0x0004FFFE00820004 = .beq ⟨.absent, .of 0, .of 0, -2, 4⟩ := by decide
theorem test_decode_bne : decode 0x0005000500923005 = .bne ⟨.absent, .of 3, .of 4, 5, 5⟩ := by decide
theorem test_decode_nop : decode 0x0006000000000006 = .nop ⟨.absent, .absent, .absent, 0, 6⟩ := by decide
theorem test_decode_halt : decode 0x0007000000000007 = .halt ⟨.absent, .absent, .absent, 0, 7⟩ := by decide
/-- EN-10 and EN-11: the largest and the smallest immediate. -/
theorem test_decode_imm_ends :
    (decode 0x00097FFF00022842).fields.imm.toInt = 32767 ∧ (decode 0x000A8000008A1005).fields.imm.toInt = -32768 := by
  decide
/-- EN-12 and EN-13: the reserved bits are ignored. -/
theorem test_decode_reserved : decode 0x38 = decode 0 ∧ decode 0xFF000000 = decode 0 := by decide
/-- The word of EN-4, encoded. -/
theorem test_encode_store : encode (.store ⟨.absent, .of 9, .of 10, 12, 3⟩) = 0x0003000C00AA9003 := by decide
theorem test_decodeTableWord :
    decodeTableWord 64 0x0002FFFC000289C2 = some (.load ⟨.of 7, .of 8, .absent, -4, 2⟩) ∧
    decodeTableWord 8 0xFF07 = some (.halt noF) := by decide

/-! Well-formedness: each condition of R88 refuses an ill-formed term. -/

theorem test_wf_accepts :
    [0x00000000008E2840, 0x0001000000FE0FC1, 0x0002FFFC000289C2, 0x0003000C00AA9003, 0x0004FFFE00820004,
      0x0005000500923005, 0x0006000000000006, 0x0007000000000007].all wordWf = true := by decide
theorem test_wf_reserved_low : reservedClear 0x38 = false := by decide
theorem test_wf_reserved_high : reservedClear 0xFF000000 = false := by decide
theorem test_wf_add_absent : (Instr.add ⟨.of 1, .absent, .of 3, 0, 0⟩).wf = false := by decide
theorem test_wf_add_imm : (Instr.add ⟨.of 1, .of 2, .of 3, 1, 0⟩).wf = false := by decide
theorem test_wf_sub_absent : (Instr.sub ⟨.absent, .of 2, .of 3, 0, 0⟩).wf = false := by decide
theorem test_wf_load_rs2 : (Instr.load ⟨.of 1, .of 2, .of 1, 0, 0⟩).wf = false := by decide
theorem test_wf_store_rd : (Instr.store ⟨.of 1, .of 2, .of 1, 0, 0⟩).wf = false := by decide
theorem test_wf_beq_absent : (Instr.beq ⟨.absent, .of 2, .absent, -1, 0⟩).wf = false := by decide
theorem test_wf_bne_rd : (Instr.bne ⟨⟨false, 1⟩, .of 2, .of 1, -1, 0⟩).wf = false := by decide
theorem test_wf_nop_imm : (Instr.nop ⟨.absent, .absent, .absent, 1, 0⟩).wf = false := by decide
theorem test_wf_halt_rs1 : (Instr.halt ⟨.absent, .of 0, .absent, 0, 0⟩).wf = false := by decide
theorem test_wf_ids : idsRise [0, 1, 5] = true ∧ idsRise [0, 2, 2] = false ∧ idsRise [1, 0] = false := by decide
theorem test_wf_program : programWf [0x0000FFFF00820004, 0x0001000000000006, 0x0002000000000007] = true := by decide

/-! One cycle of each instruction. -/

/-- PE-1: the cycle after reset fetches word 0. -/
theorem test_add_fetched :
    (nextOf (step (prog [0x00000000008E2840]))).map (fun t => (t.ifid, t.pc, t.mCycles))
      = some (.instr (.add ⟨.of 1, .of 2, .of 3, 0, 0⟩) 0, 1, 1) := by decide
/-- HD-1: without forwarding a SUB behind its producer in EX is held, with forwarding it is not (R133, R134). -/
theorem test_sub_held :
    (detect false (.instr (subI 4 1 5) 1) (.instr (addI 1 2 3) 0) gap gap).stall = true ∧
    (detect true (.instr (subI 4 1 5) 1) (.instr (addI 1 2 3) 0) gap gap).stall = false := by decide
/-- HD-9: a LOAD behind a LOAD of its base is held under forwarding. -/
theorem test_load_use :
    detect true (.instr (loadI 3 1) 1) (.instr (loadI 1 2) 0) gap gap = ⟨true, .raw⟩ := by decide
/-- HD-18 (EN-16): rs2 of a LOAD is not a source. -/
theorem test_load_ignores_rs2 :
    (detect false (.instr (decode 0x0000000000862842) 1) (.instr (addI 1 3 4) 0) gap gap).stall = false := by decide
/-- HD-8 and IN-6: a STORE consumes its data and its base, and produces nothing. -/
theorem test_store_operands :
    (detect true (.instr (storeI 1 2) 1) (.instr (loadI 2 5) 0) gap gap).stall = true ∧
    (Latch.instr (storeI 1 2) 1).dst = none := by decide
/-- S3, P2 cycle 3: BEQ r0 r0 -2 resolves taken against the not-taken guess and redirects pc to -1. -/
theorem test_beq_mispredicts :
    (nextOf (step { pipe 2 (.instr haltI 1) (.instr (.beq (branchF (-2))) 0) gap gap with cfgBpEn := true })).map
      (fun t => (t.ifid, t.pc, t.flush, t.mBpPredictions, t.mBpMispredictions))
      = some (.bubble .flush, -1, 2, 1, 1) := by decide
/-- PE-8, cycle 2: BNE r1 r2 1 predicted taken by STATIC_T is followed by the fetch of its target, address 2. -/
theorem test_bne_predicted :
    (nextOf (step { attach 1 (pipe 3 (.instr (.bne (branchF 1)) 0) gap gap gap) with pc := 1 })).map
      (fun t => (t.ifid, t.idex.predV, t.idex.predT, t.pc))
      = some (.instr nopI 2, true, true, 3) := by decide
/-- IN-13: a NOP in WB is not counted. IN-1: an ADD is. -/
theorem test_nop_not_counted :
    (nextOf (step (pipe 4 gap gap gap (.instr nopI 0)))).map (fun t => (t.halted, t.mRetired)) = some (false, 0) ∧
    (nextOf (step (pipe 4 gap gap gap (.instr (addI 1 2 3) 0)))).map (fun t => (t.halted, t.mRetired))
      = some (false, 1) := by decide
/-- IN-14 and R200: a HALT in WB halts the core, is not counted, and fails the cycle's fetch. -/
theorem test_halt_halts :
    (nextOf (step (pipe 4 gap gap gap (.instr haltI 0)))).map (fun t => (t.halted, t.mRetired, t.ifid, t.pc))
      = some (true, 0, gap, 2) := by decide

/-! The hazard detector and the selects: HD-14, HD-15, HD-20, HD-21 of section 2.3. -/

theorem test_select_nearest :
    forwardSelect true (some 1) (.instr (addI 1 2 3) 2) (.instr (addI 1 4 5) 1) gap = .ex ∧
    forwardSelect true (some 2) (.instr (loadI 1 5) 2) (.instr (addI 2 6 7) 1) gap = .mem ∧
    forwardSelect true (some 5) (.instr (loadI 1 2) 2) gap (.instr (addI 5 6 7) 0) = .wb ∧
    forwardSelect false (some 1) (.instr (addI 1 2 3) 2) gap gap = .regfile := by decide
theorem test_r0_is_ordinary :
    (detect false (.instr (addI 1 0 0) 1) (.instr (addI 0 2 3) 0) gap gap).stall = true := by decide

/-! The predictor unit: section 2.4. -/

/-- BP-2, steps 1 to 3 and 6 to 8: the two-bit counter at both ends. -/
theorem test_two_bit_ends :
    trainCtr true 1 = 2 ∧ trainCtr true 3 = 3 ∧ trainCtr false 0 = 0 ∧ trainCtr true 0 = 1 ∧
    ctrHigh 1 = false ∧ ctrHigh 2 = true := by decide
/-- BP-T1, steps 4 and 7: the chooser goes to the component that was right. -/
theorem test_chooser : nudgeChooser false true true 1 = 2 ∧ nudgeChooser false true false 2 = 1 := by decide
/-- The state of BP-T4: t_ob[7] = 1 and everything else at its reset value. -/
def bpT4 : Bpu := { Bpu.reset with tOb := Table.set false [] 7 true }
/-- BP-T4: predict and update in one cycle. The update reads the predictions the predict has just written. -/
theorem test_same_cycle_bypass :
    predictTaken .tournament bpT4 7 = true ∧
    Table.get Config.chooserInit (bpuCycle .tournament (some 7) (some (7, true)) bpT4).tCh 7 = 0 ∧
    Table.get Config.twoBitInit (bpuCycle .tournament (some 7) (some (7, true)) bpT4).tTb 7 = 2 := by decide

/-! Resets, the halted state and the contract. -/

theorem test_rst : nextOf (step { pipe 4 (.instr haltI 1) gap gap gap with rst := true, halted := true })
    = some { prog (List.replicate 4 (encode nopI)) with rst := true, inRun := true } := by decide
theorem test_bp_rst_halted :
    (nextOf (step { State.reset with bpRst := true, halted := true, bpu := bpT4 })).map State.bpu = some Bpu.reset := by
  decide
/-- R263 and R264: bp_rst alone is taken once the host has ended the run, and refused while it is on. -/
theorem test_bp_rst_after_the_ceiling :
    let s := { pipe 4 (.instr nopI 1) gap gap gap with bpRst := true, bpu := bpT4, inRun := true }
    (nextOf (step s.endRun)).map State.bpu = some Bpu.reset ∧ nextOf (step s) = none := by decide
/-- R190: PE runs its cycle on that edge. A NOP in ID moves on, the NOP at address 2 is fetched, and the cycle is counted. -/
theorem test_bp_rst_edge_is_a_cycle :
    (nextOf (step { pipe 4 (.instr nopI 1) gap gap gap with bpRst := true })).map
      (fun t => (t.ifid, t.idex.latch, t.pc, t.mCycles, t.inRun))
      = some (.instr nopI 2, .instr nopI 1, 3, 1, false) := by decide
/-- R198 and R263: with a predictor attached a branch in ID is recorded on that edge, and no call is made. -/
theorem test_bp_rst_edge_records :
    let s := { attach 2 (pipe 4 (.instr (.beq (branchF 0)) 1) gap gap gap) with bpRst := true, bpu := bpT4 }
    predReq s = none ∧ (nextIdex s.directed).predV = true := by
  refine ⟨by decide, ?_⟩
  generalize hd : Config.directionWithoutCall 2 0 = d
  cases d <;> simp only [State.directed, attach, pipe, prog, State.reset, hd] <;> decide
theorem test_halted_fixed :
    nextOf (step { pipe 4 (.instr haltI 1) gap gap gap with halted := true })
      = some { pipe 4 (.instr haltI 1) gap gap gap with halted := true } := by decide
/-- BP-R: kinds 5, 6 and 7 are refused with a predictor enabled, and ignored without one. -/
theorem test_reserved_kind :
    [5, 6, 7].map (fun k => contractBreach (attach k State.reset))
      = [some .reservedPredictorKind, some .reservedPredictorKind, some .reservedPredictorKind] ∧
    contractBreach { State.reset with cfgBpKind := 7 } = none := by decide
/-- R164 and I2: a cycle on a bp_rst edge refuses a reserved kind too; in the halted state no cycle runs. -/
theorem test_reserved_kind_on_bp_rst :
    let s := { attach 7 State.reset with bpRst := true }
    step s = .refused .reservedPredictorKind ∧ (nextOf (step { s with cfgBpEn := false })).isSome = true ∧
    (nextOf (step { s with halted := true })).isSome = true := ⟨rfl, by decide, by decide⟩
theorem test_contract_ends :
    contractBreach { State.reset with cfgProgLen := 65536 } = none ∧
    contractBreach { State.reset with cfgProgLen := 65537 } = some .programTooLong ∧
    contractBreach { State.reset with mCycles := 0xFFFFFFFFFFFFFFFE } = none ∧
    contractBreach { State.reset with mCycles := 0xFFFFFFFFFFFFFFFF } = some .cycleCounterFull := by decide
/-- withFetchWord: the very next step after reset runs the word. -/
theorem test_withFetchWord :
    (nextOf (step (State.reset.withFetchWord 64 0x0003000C00AA9003))).map State.ifid
      = some (.instr (.store ⟨.absent, .of 9, .of 10, 12, 3⟩) 0) := by decide
/-- R209: the record of PE-1. -/
theorem test_record : edgeRecord (prog [0x0007000000000007])
    = some ⟨.instr .halt 7, .empty, .empty, .empty, .empty⟩ := by decide
/-- S1, and PE-3: CPI = 7/2, and none when nothing has retired. -/
theorem test_cpi :
    cpi { State.reset with mCycles := 7, mRetired := 2 } = some (7 / 2) ∧ cpi { State.reset with mCycles := 5 } = none := by
  decide +kernel

/-! Witnesses: the hypotheses of each statement that has some are met by a concrete state, and for a statement with
several cases by one at the end of each case's range. -/

theorem loaded_pipe4 (ifid ex mem wb : Latch) : romLoaded (pipe 4 ifid ex mem wb) := by
  change ∀ a, a < 4 → (Memory.read (Memory.ofWords 0 (List.replicate 4 (encode nopI))) a).isSome = true
  decide

theorem witness_ReservedBitsAreIgnored : wordWf 0x00000000008E2840 = true := by decide
theorem witness_OpcodeNumbers :
    [0, 1, 2, 3, 4, 5, 6, 7].map (fun w : Word => (decode w).op)
      = [.add, .sub, .load, .store, .beq, .bne, .nop, .halt] ∧ (0xFFFFFFFFFFFFFFFF : Word).toNat % 8 = 7 := by decide
theorem witness_FieldPositions :
    (decode 0x7FFF00000000).fields.imm.toInt = 2 ^ 15 - 1 ∧ (decode 0x800000000000).fields.imm.toInt = -2 ^ 15 := by
  decide
theorem witness_ProducersAndConsumersByOpcode :
    (Latch.instr (loadI 31 0) 0).dst = some 31 ∧ (Latch.instr (loadI 31 0) 0).consumes 0 = true ∧
    (Latch.instr (storeI 3 4) 0).consumes 4 = true ∧ (Latch.instr haltI 0).dst = none := by decide
theorem witness_ReferenceOracle :
    Config.branchOracle (.beq (branchF (-1))) 0 = true ∧ Config.branchOracle (.beq (branchF 0)) 0 = false := by decide
theorem witness_StallDecision :
    (detect false (.instr (subI 4 1 5) 1) gap gap (.instr (addI 1 2 3) 0)).stall = true ∧
    (detect true (.instr (subI 4 1 5) 1) gap gap (.instr (loadI 1 2) 0)).stall = false := by decide
/-- HD-21 and HD-8: rs1 and rs2 have different selects. -/
theorem test_select_operands :
    let s := forwarding (pipe 4 (.instr (addI 4 1 5) 1) (.instr (loadI 1 2) 0) gap (.instr (addI 5 6 7) 0))
    let u := forwarding (pipe 4 (.instr (storeI 1 2) 1) (.instr (loadI 2 5) 0) gap gap)
    (fwdSel1 s, fwdSel2 s) = (.ex, .wb) ∧ (fwdSel1 u, fwdSel2 u) = (.regfile, .ex) := by decide
theorem witness_NearestProducerIsForwarded :
    (Latch.instr (addI 1 2 3) 0).dst = some 1 ∧ gap.dst ≠ some 1 ∧ (Latch.instr (addI 2 2 3) 0).dst ≠ some 1 := by decide
/-- The producer 1, 2 and 3 stages ahead, and none. -/
theorem witness_StallLengthWithoutForwarding :
    [pipe 4 (.instr (subI 4 1 5) 1) (.instr (addI 1 2 3) 0) gap gap,
      pipe 4 (.instr (subI 4 1 5) 1) gap (.instr (addI 1 2 3) 0) gap,
      pipe 4 (.instr (subI 4 1 5) 1) gap gap (.instr (addI 1 2 3) 0), pipe 4 gap gap gap gap].all (fun s =>
        executes s && roomFor 3 s && s.flush == 0 && !s.cfgFwdEn && (mispredict Config.branchOracle s).isNone
          && !s.idex.latch.halts && !s.exmem.halts && !s.memwb.halts) = true ∧
    (hazard (pipe 4 (.instr (subI 4 1 5) 1) gap gap (.instr (addI 1 2 3) 0))).stall = true := by decide
theorem witness_LoadUseStallsExactlyOnce :
    let s := forwarding (pipe 4 (.instr (.beq ⟨.absent, .of 1, .of 0, 1, 0⟩) 1) (.instr (loadI 1 2) 0) gap gap)
    executes s = true ∧ roomFor 1 s = true ∧ s.flush = 0 ∧ s.cfgFwdEn = true ∧ s.ifid.consumes 1 = true := by decide
theorem witness_PredictIsIdempotent :
    bpT4.wf = true ∧ { bpT4 with bpCalls := 0xFFFFFFFFFFFFFFFE }.bpCalls ≠ BitVec.allOnes 64 ∧
    bpT4.tCalls1 ≠ BitVec.allOnes 64 ∧ bpT4.tCalls2 ≠ BitVec.allOnes 64 ∧ BpKind.oneBit ≠ .tournament := by decide
theorem witness_OneBitPredictsTheLastOutcome :
    { Bpu.reset with ob := Table.set false [] 65535 true }.wf = true ∧
    predictTaken .oneBit { Bpu.reset with ob := Table.set false [] 65535 true } 65535 = true := by decide
theorem witness_TwoBitSaturates :
    [0, 1, 2, 3].all (fun c => { Bpu.reset with tb := Table.set Config.twoBitInit [] 0 c }.wf) = true := by decide
/-- The chooser at 1 and at 2: each component is selected. -/
theorem witness_TournamentPredict :
    [1, 2].all (fun c => { bpT4 with tCh := Table.set Config.chooserInit [] 7 c }.wf) = true ∧
    [1, 2].map (fun c => predictTaken .tournament { bpT4 with tCh := Table.set Config.chooserInit [] 7 c } 7)
      = [true, false] := by decide
/-- The retained predictions agree, or one of them was right, with the chooser at each end. -/
theorem witness_TournamentUpdate :
    [0, 3].all (fun c => [true, false].all fun q1 => [true, false].all fun q2 =>
      { Bpu.reset with
        tCh := Table.set Config.chooserInit [] 0 c, tLp1 := Table.set false [] 0 q1
        tLp2 := Table.set false [] 0 q2 }.wf) = true := by decide
/-- The self-loop of BP-T5: BEQ r0 r0 -1 in ID and in EX at the same address, with the tournament. -/
theorem witness_PredictComesBeforeUpdate :
    let b : Latch := .instr (.beq (branchF (-1))) 7
    let s := attach 4 (pipe 4 b b gap gap)
    s.halted = false ∧ contractBreach s = none ∧ arm s = .advance ∧ attached s = some .tournament ∧
    b.isBranch = true ∧ s.bpu.wf = true := by decide
theorem witness_StaticStrategiesMispredict :
    [(0, some BpKind.staticNt), (1, some .staticT)].all (fun x =>
      let s := attach x.1 (pipe 4 (.instr (.bne (branchF (-1))) 1) gap gap gap)
      arm s == .advance && s.ifid.isBranch && attached s == x.2) = true := by decide
theorem witness_NoPredictorLeavesBpuAlone :
    let s := pipe 4 (.instr (.beq (branchF (-1))) 1) gap gap gap
    s.cfgBpEn = false ∧ executes s = true ∧ arm s = .advance ∧ (nextOf (step s)).isSome = true := by decide
theorem witness_ReservedKindIsRefused :
    (attach 5 State.reset).cfgBpEn = true ∧ (attach 5 State.reset).cfgBpKind.toNat = 5 ∧
    (attach 7 State.reset).cfgBpKind.toNat = 7 ∧ State.reset.halted = false ∧ State.reset.cfgBpEn = false := by decide
theorem witness_PredictionsPairWithResolutions :
    let s := attach 2 (pipe 4 (.instr (.beq (branchF 1)) 1) gap gap gap)
    engineInv s = true ∧ s.cfgBpEn = true ∧ s.bpu.bpCalls ≠ BitVec.allOnes 64 ∧ executes s = true ∧
    (nextOf (step s)).isSome = true := by decide
theorem witness_StepRunsTheDecodedWord :
    fetchSlot (pipe 4 gap gap gap gap) = some 2 ∧ Memory.read (pipe 4 gap gap gap gap).rom 2 = some (encode nopI) ∧
    fetchSlot (pipe 2 gap gap gap gap) = none := by decide
/-- The first and the last address a fetch can have. -/
theorem witness_PlacedWordRunsNext :
    [0, 65535].all (fun a : Addr =>
      let s := { State.reset with pc := a }
      arm s == .advance && !nextHalted s && decide (0 ≤ (fetchAddr s).toInt)
        && decide ((fetchAddr s).toInt < (Config.pmax : Int))) = true := by decide
/-- At the first and the last address of the program; with a rightly guessed branch in EX under a predictor; and with a branch
in ID and none attached. -/
theorem witness_EveryInstructionEntersThePipe :
    [{ pipe 4 (.instr (addI 1 2 3) 1) (.instr (loadI 4 5) 0) gap (.instr nopI 0) with pc := 0 },
      { pipe 4 (.instr (addI 1 2 3) 1) (.instr (loadI 4 5) 0) gap (.instr nopI 0) with pc := 3 },
      attach 4 (pipe 4 (.instr nopI 1) (.instr (.beq (branchF 1)) 0) gap gap),
      pipe 4 (.instr (.beq (branchF (-1))) 1) gap gap gap].all (fun s =>
        !s.halted && (contractBreach s).isNone && arm s == .advance && !s.memwb.halts && (predictCall s).isNone
          && (mispredict Config.branchOracle s).isNone && inProgram s.pc s.cfgProgLen) = true := by decide
/-- An idle pipe whose pc is at the last word of the program, the first and the last address. -/
def idleAt (n : BitVec 17) (a : Addr) : State := { State.reset with cfgProgLen := n, pc := a }
theorem witness_LoneInstructionPassesThrough :
    pipeIdle (idleAt 1 0) 0 = true ∧ roomFor 5 (idleAt 1 0) = true ∧ pipeIdle (idleAt 65536 65535) 65535 = true ∧
    roomFor 5 (idleAt 65536 65535) = true := by decide
theorem witness_LoneHaltHalts :
    pipeIdle { idleAt 1 0 with memwb := .bubble .stall } 0 = true ∧ roomFor 5 (idleAt 1 0) = true := by decide
/-- With no predictor and with each of the five, predicted right and wrong. -/
theorem witness_LoneBranchResolvesAndRetires :
    [0, 1, 2, 3, 4].all (fun k =>
      pipeIdle (attach k (idleAt 1 0)) 0 && roomFor 5 (attach k (idleAt 1 0))) = true ∧
    pipeIdle (idleAt 65536 65535) 65535 = true ∧
    [(-2 : Imm), 0, 1].all (fun imm => !inProgram (target 0 imm) 1) = true ∧
    inProgram (target 65535 32767) 65536 = false := by decide
theorem witness_WriteBackRetiresOrHalts :
    [.instr haltI 0, .instr nopI 0, .instr (addI 1 2 3) 0, gap].all (fun l =>
      !(pipe 4 gap gap gap l).halted && (contractBreach (pipe 4 gap gap gap l)).isNone) = true := by decide
theorem witness_FlushArm :
    [1, 2, 3].all (fun n : BitVec 2 =>
      let s := { pipe 4 (.bubble .flush) gap gap gap with flush := n }
      !s.halted && (contractBreach s).isNone && s.flush != 0 && (mispredict Config.branchOracle s).isNone) = true := by
  decide
theorem witness_RawStallArm :
    let s := pipe 4 (.instr (subI 4 1 5) 1) (.instr (addI 1 2 3) 0) gap gap
    s.halted = false ∧ contractBreach s = none ∧ s.flush = 0 ∧ (hazard s).stall = true ∧
    mispredict Config.branchOracle s = none := by decide
/-- Below the program, just past its end, and in the cycle a HALT retires. -/
theorem witness_FailedFetch :
    [{ pipe 4 gap gap gap gap with pc := -1 }, { pipe 4 gap gap gap gap with pc := 4 },
      pipe 4 gap gap gap (.instr haltI 0)].all (fun s =>
        !s.halted && (contractBreach s).isNone && arm s == .advance && (mispredict Config.branchOracle s).isNone
          && (decide ((fetchAddr s).toInt < 0) || decide ((s.cfgProgLen.toNat : Int) ≤ (fetchAddr s).toInt)
            || s.memwb.halts)) = true := by decide
/-- Predicted taken to the first word of the program, and not taken. -/
theorem witness_PredictedFetch :
    [0, 1].all (fun k =>
      let s := attach k (pipe 4 (.instr (.beq (branchF (-2))) 1) gap gap gap)
      !s.halted && (contractBreach s).isNone && arm s == .advance && (attached s).isSome
        && (mispredict Config.branchOracle s).isNone && !s.memwb.halts && inProgram (fetchAddr s) s.cfgProgLen) = true := by
  decide
/-- A branch in EX with a wrong guess and with a right one, and none; with a predictor and without. -/
theorem witness_BranchResolution :
    [(.instr (.beq (branchF (-1))) 0, true), (.instr (.bne (branchF 0)) 0, false), (gap, false)].all (fun x =>
      [attach 0 (pipe 4 gap x.1 gap gap), pipe 4 gap x.1 gap gap].all (fun s =>
        !s.halted && (contractBreach s).isNone && (mispredict Config.branchOracle s).isSome == x.2)) = true := by decide
theorem witness_HaltAndMispredictionTogether :
    let s := pipe 4 gap (.instr (.beq (branchF (-1))) 0) gap (.instr haltI 0)
    s.halted = false ∧ contractBreach s = none ∧ s.memwb.halts = true ∧
    mispredict Config.branchOracle s = some ⟨0, true, false, 0⟩ := by decide
/-- The shadow in normal advance, and held behind a producer two stages ahead. -/
theorem witness_MispredictShadowGoesOn :
    (contractBreach (pipe 4 gap gap gap gap)).isNone = true ∧
    [(gap, Arm.advance), (.instr (addI 4 2 3) 1, Arm.rawStall)].all (fun x =>
      let s := pipe 4 x.1 (.instr (.beq (branchF (-1))) 0) (.instr (addI 2 5 5) 0) gap
      !s.halted && (mispredict Config.branchOracle s).isSome && arm s == x.2) = true := by decide
/-- A misprediction whose correct address is in the program, and one whose correct address is not. -/
theorem witness_SingleMispredictionCostsTwo (imm : Imm) (h : imm = -1 ∨ imm = -2) :
    let s := pipe 4 (.instr nopI 1) (.instr (.beq (branchF imm)) 0) gap gap
    romLoaded s ∧ executes s = true ∧ roomFor 4 s = true ∧ s.ifid.halts = false ∧ s.exmem.halts = false ∧
    s.memwb.halts = false ∧ (mispredict Config.branchOracle s).isSome = true ∧
    (nextOf (step s)).map (mispredict Config.branchOracle) = some none := by
  refine ⟨loaded_pipe4 _ _ _ _, ?_⟩
  rcases h with rfl | rfl <;> decide
theorem witness_BackToBackMispredictionsOverlap :
    let s := pipe 4 (.instr (.bne (branchF (-1))) 1) (.instr (.beq (branchF (-1))) 0) gap gap
    executes s = true ∧ roomFor 4 s = true ∧ s.exmem.halts = false ∧ s.memwb.halts = false ∧ s.flush = 0 ∧
    mispredict Config.branchOracle s = some ⟨0, true, false, 0⟩ ∧
    (nextOf (step s)).map (mispredict Config.branchOracle) = some (some ⟨1, true, false, 1⟩) := by decide
/-- Predicted taken to -1 by STATIC_T, which is right, and to 5 by a trained 1-bit entry, which is wrong. -/
theorem witness_OutOfRangePredictionFallsThrough (x : BitVec 3 × Imm) (h : x = (1, -3) ∨ x = (2, 3)) :
    let s := { attach x.1 (pipe 4 (.instr (.beq (branchF x.2)) 1) gap gap gap) with
      bpu := { Bpu.reset with ob := Table.set false [] 1 true } }
    romLoaded s ∧ executes s = true ∧ roomFor 2 s = true ∧ arm s = .advance ∧ mispredict Config.branchOracle s = none ∧
    s.memwb.halts = false ∧ s.exmem.halts = false ∧ s.pc = fallthrough 1 ∧ predicted s = some true ∧
    inProgram (target 1 x.2) s.cfgProgLen = false ∧ inProgram (fallthrough 1) s.cfgProgLen = true := by
  refine ⟨loaded_pipe4 gap gap gap gap, ?_⟩
  rcases h with rfl | rfl <;> decide
theorem witness_NothingStopsTheWayToWriteBack :
    let s := pipe 4 gap (.instr haltI 0) gap gap
    let run n := nextOf (Host.Core.run core n s)
    executes s = true ∧ (run 1).map State.halted = some false ∧ (run 2).map State.halted = some false ∧
    (run 3).map State.halted = some true := by decide
theorem witness_ResetEdges :
    { State.reset with rst := true }.rst = true ∧ { State.reset with bpRst := true, halted := true }.rst = false ∧
    { State.reset with bpRst := true }.inRun = false ∧ { State.reset with bpRst := true, inRun := true }.halted = false ∧
    contractBreach { State.reset with bpRst := true } = none ∧ gap.isBranch = false ∧
    (nextOf (step { pipe 4 (.instr nopI 1) gap gap gap with bpRst := true })).isSome = true := by
  decide
theorem witness_ResetEdges_refused :
    contractBreach { attach 5 State.reset with bpRst := true } = some .reservedPredictorKind := by decide
theorem witness_ResetEdges_romLoaded : romLoaded { pipe 4 gap gap gap gap with bpRst := true } :=
  loaded_pipe4 gap gap gap gap
theorem witness_HaltedStateIsFixed :
    { State.reset with halted := true }.halted = true ∧ { State.reset with halted := true }.rst = false := by decide
theorem witness_EveryCycleInContractRuns :
    romLoaded (pipe 4 gap gap gap gap) ∧ executes (pipe 4 gap gap gap gap) = true ∧
    contractBreach (pipe 4 gap gap gap gap) = none := ⟨loaded_pipe4 _ _ _ _, by decide, by decide⟩
theorem witness_InputsAreNeverWritten : (nextOf (step { State.reset with rst := true })).isSome = true := by decide
theorem witness_CountersGrowByAtMostOne :
    let s := pipe 4 (.instr nopI 1) (.instr (.beq (branchF (-1))) 0) gap gap
    engineInv s = true ∧ executes s = true ∧ (nextOf (step s)).isSome = true := by decide
theorem witness_RecordShowsTheSlots :
    executes (prog [0x7]) = true ∧ (nextOf (step (prog [0x7]))).isSome = true := by decide
/-- In a running pipe, and on a reset edge. -/
theorem witness_StepKeepsMachineInv :
    let s := pipe 4 (.instr nopI 1) (.instr nopI 0) gap gap
    machineInv s = true ∧ (nextOf (step s)).isSome = true ∧
    machineInv { s with rst := true } = true ∧ (nextOf (step { s with rst := true })).isSome = true := by decide
theorem witness_EngineInvHoldsUnderEveryOracle :
    engineInv (attach 4 State.reset) = true ∧ contractBreach (attach 4 State.reset) = none := by decide
/-- In the reset state, and on a reset edge with a predictor newly enabled over the last run's branch in IDEX. -/
theorem witness_DebugBuildAgrees :
    let s := { attach 2 (pipe 4 gap (.instr (.beq (branchF 1)) 0) gap gap) with rst := true }
    engineInv State.reset = true ∧ executes s = false ∧ engineInv s = false := by decide
theorem witness_EmptyProgramOnlyCounts :
    executes State.reset = true ∧ roomFor 100 State.reset = true ∧ State.reset.cfgProgLen = 0 ∧ State.reset.flush = 0 ∧
    State.reset.ifid.kind ≠ 1 ∧ State.reset.idex.latch.kind ≠ 1 ∧ State.reset.exmem.kind ≠ 1 ∧
    State.reset.memwb.kind ≠ 1 := by decide
/-- The configuration of BP-T5's run. -/
def bpT5 : RunConfig :=
  { fwdEn := true, bpEn := true, bpKind := 4, freshBpu := true
    program := [0x0000FFFF00820004, 0x0001000000000006, 0x0002000000000007] }
theorem witness_RoundTrip :
    bpT5.freshBpu = true ∧ (nextOf (beginRun bpT5 State.reset)).isSome = true ∧
    (nextOf (beginRun bpT5 { State.reset with bpu := bpT4, halted := true })).isSome = true := by decide
theorem witness_LoaderPlacesTheProgram :
    bpT5.breach State.reset = none ∧ { bpT5 with bpEn := false, program := [] }.breach State.reset = none ∧
    [0x38].length ≤ Config.pmax ∧ programWf [0x38] = false := by decide
/-- A new kind after an earlier bp_rst, with cfg_bp_en = 0, and against the strategy BPU has been called under. -/
theorem witness_KindChangesNeedAFreshPredictor :
    let c := { bpT5 with freshBpu := false, bpKind := 3 }
    let used := { State.reset with bpu := predictState .oneBit Bpu.reset 0, cfgBpKind := 2 }
    c.program.length ≤ Config.pmax ∧ programWf c.program = true ∧ c.bpKind.toNat ≤ 4 ∧
    State.reset.bpu.strategy = none ∧ { c with bpEn := false, bpKind := 7 }.bpEn = false ∧
    used.bpu.strategy = some .oneBit ∧ BpKind.ofCode c.bpKind = some .twoBit ∧
    (nextOf (step { State.reset with bpRst := true })).isSome = true ∧
    predReq (attach 3 (pipe 4 (.instr (.beq (branchF 1)) 1) gap gap gap)) = some 1 := by decide
/-- A run that halts, of five cycles, and one that ends at the ceiling. -/
theorem witness_RunEndsHaltedOrAtTheCeiling :
    [9, 3].map (fun k => match runTo k (prog [0x7]) with
      | .next r => (r.records.length, r.final.halted)
      | .fault _ => (0, false)
      | .refused _ => (0, false)) = [(5, true), (3, false)] := by decide

end Sys2Proof.Tests
end

section
/-! The state after reset, what binds BPU to a strategy and what frees it, and when a run may begin (spec/10_state.md R46,
R48). -/

namespace Sys2Proof.Machine

section ResetState

/-- A table without entries holds its reset value everywhere (R41 to R43). -/
@[simp] theorem Table.get_nil {α : Type} (d : α) (p : Pos) : Table.get d [] p = d := rfl

theorem Bpu.reset_wf : Bpu.reset.wf = true := rfl

/-- The engine's invariant does not read inRun, in which alone the state after power-on differs from the one a reset edge
gives. -/
theorem reset_engineInv : engineInv State.reset = true := resetEdge_engineInv State.reset

end ResetState

section Strategy

/-- The codes that select a strategy are 0 to 4 (R31, R164). -/
theorem ofCode_isSome_iff (c : BitVec 3) : (BpKind.ofCode c).isSome = true ↔ c.toNat ≤ 4 := by
  revert c
  decide

/-- A predict call asks the attached strategy (R198). -/
theorem attached_of_predictCall (s : State) (c : PredictCall) (h : predictCall s = some c) :
    attached s = some c.kind := by
  obtain ⟨_, _, _, _, hk, _⟩ := (predictCall_eq_some s c).1 h
  exact hk

theorem bpuPredicted_of_no_call (s : State) (h : predictCall s = none) : bpuPredicted s = s.bpu := by
  simp [bpuPredicted, h]

theorem bpuPredicted_of_call (s : State) (c : PredictCall) (h : predictCall s = some c) :
    bpuPredicted s = predictState c.kind s.bpu c.pos := by
  simp [bpuPredicted, h]

/-- Of the two calls of a cycle only predict can bind BPU to a strategy. -/
theorem nextBpu_strategy (o : Config.Oracle) (s : State) : (nextBpu o s).strategy = (bpuPredicted s).strategy := by
  rw [nextBpu_eq]
  split
  · exact updateState_strategy ..
  · rfl

theorem nextBpu_strategy_of_no_call (o : Config.Oracle) (s : State) (h : predictCall s = none) :
    (nextBpu o s).strategy = s.bpu.strategy := by
  rw [nextBpu_strategy, bpuPredicted_of_no_call s h]

theorem nextBpu_strategy_of_call (o : Config.Oracle) (s : State) (c : PredictCall) (h : predictCall s = some c) :
    (nextBpu o s).strategy = attached s := by
  rw [nextBpu_strategy, bpuPredicted_of_call s c h, predictState_strategy, attached_of_predictCall s c h]

/-- In an executed cycle the predict request is the cycle's predict call (R150, R198). -/
theorem predReq_of_executes (s : State) (h : executes s = true) :
    predReq s = (predictCall s).map PredictCall.pos := if_pos h

theorem predReq_of_halted (s : State) (h : s.halted = true) : predReq s = none := by
  simp [predReq, executes, h]

/-- Every edge with bp_rst high that the model accepts leaves BPU at its reset value (R263, R264). -/
theorem step_bpu_of_bpRst (s t : State) (hb : s.bpRst = true) (h : step s = .next t) : t.bpu = Bpu.reset := by
  rcases step_next_cases s t h with ⟨_, rfl⟩ | ⟨_, _, _, hedge⟩ | ⟨_, hlow, _⟩ | ⟨_, hlow, _⟩
  · simp [resetEdge_eq, hb]
  · rcases hedge with ⟨_, rfl⟩ | ⟨_, _, u, _, rfl⟩
    · exact resetBpu_bpu s
    · rw [afterBpReset_eq]
  · simp [hb] at hlow
  · simp [hb] at hlow

/-- An edge with both resets low: nothing in the halted state (R191), and otherwise one cycle (R208). -/
theorem step_next_of_resets_low (s t : State) (hr : s.rst = false) (hb : s.bpRst = false) (h : step s = .next t) :
    (s.halted = true ∧ t = s) ∨ (executes s = true ∧ ∃ f, t = cycle Config.branchOracle f s) := by
  rcases step_next_cases s t h with ⟨hhigh, _⟩ | ⟨_, hhigh, _⟩ | ⟨_, _, hh, rfl⟩ | ⟨_, _, hh, _, hf⟩
  · simp [hr] at hhigh
  · simp [hb] at hhigh
  · exact .inl ⟨hh, rfl⟩
  · refine .inr ⟨(executes_iff s).2 ⟨hr, hb, hh⟩, ?_⟩
    rcases hf with ⟨_, rfl⟩ | ⟨_, w, _, _, rfl⟩
    · exact ⟨none, rfl⟩
    · exact ⟨some (decode w), rfl⟩

/-- BPU keeps its strategy over an edge with both resets low that makes no predict call (R46). -/
theorem step_strategy_of_no_call (s t : State) (hr : s.rst = false) (hb : s.bpRst = false) (h : step s = .next t)
    (hq : predReq s = none) : t.bpu.strategy = s.bpu.strategy := by
  rcases step_next_of_resets_low s t hr hb h with ⟨_, rfl⟩ | ⟨he, f, rfl⟩
  · rfl
  · rw [predReq_of_executes s he, Option.map_eq_none_iff] at hq
    exact nextBpu_strategy_of_no_call _ s hq

/-- An edge that makes a predict call binds BPU to the attached strategy (R46, R198). -/
theorem step_strategy_of_call (s t : State) (p : Pos) (hr : s.rst = false) (hb : s.bpRst = false)
    (h : step s = .next t) (hq : predReq s = some p) : t.bpu.strategy = attached s := by
  rcases step_next_of_resets_low s t hr hb h with ⟨hh, rfl⟩ | ⟨he, f, rfl⟩
  · simp [predReq_of_halted _ hh] at hq
  · rw [predReq_of_executes s he] at hq
    obtain ⟨c, hc, _⟩ := Option.map_eq_some_iff.1 hq
    exact nextBpu_strategy_of_call _ s c hc

end Strategy

section Begin

/-- A rst edge answers the reset of PE, whatever the state (R260). -/
theorem step_of_rst (s : State) (h : s.rst = true) : step s = .next (resetEdge s) := if_pos h

/-- A run that the loader accepts begins from the reset edge, with the reset inputs low again (R266). -/
theorem beginRun_of_breach_none (c : RunConfig) (s : State) (h : c.breach s = none) :
    beginRun c s = .next (resetEdge (c.drive s)).lowerResets := by
  have hstep : step (c.drive s) = .next (resetEdge (c.drive s)) := step_of_rst _ rfl
  simp [beginRun, h, hstep]

theorem beginRun_of_breach (c : RunConfig) (s : State) (r : Refusal) (h : c.breach s = some r) :
    beginRun c s = .refused r := by
  simp [beginRun, h]

/-- What a change of kind is: a run with a predictor, without bp_rst, on a BPU bound to another strategy (R46;
notes/assumptions/14.md). -/
theorem changesKind_iff (c : RunConfig) (s : State) :
    c.changesKind s = true ↔ c.bpEn = true ∧ c.freshBpu = false ∧
      ∃ k, s.bpu.strategy = some k ∧ BpKind.ofCode c.bpKind ≠ some k := by
  unfold RunConfig.changesKind
  cases hs : s.bpu.strategy with
  | none => simp
  | some k => simp [and_assoc, @eq_comm _ (some k)]

/-- For a well-formed program under a legal configuration the change of kind is the one thing left to refuse (R46, R266). -/
theorem breach_of_legal (c : RunConfig) (s : State) (hlen : c.program.length ≤ Config.pmax)
    (hwf : programWf c.program = true) (hkind : c.bpEn = true → c.bpKind.toNat ≤ 4) :
    c.breach s = if c.changesKind s then some .kindChangedWithoutBpReset else none := by
  have hlegal : (c.bpEn && (BpKind.ofCode c.bpKind).isNone) = false := by
    cases hen : c.bpEn with
    | false => rfl
    | true => simpa [Option.isSome_iff_ne_none] using (ofCode_isSome_iff _).2 (hkind hen)
  simp [RunConfig.breach, Nat.not_lt.2 hlen, hwf, hlegal]

/-- Each of the four ways to keep or free BPU's strategy rules out a change of kind (R46, R164, R171). -/
theorem changesKind_eq_false (c : RunConfig) (s : State)
    (h : c.bpEn = false ∨ c.freshBpu = true ∨ s.bpu.strategy = none ∨ s.bpu.strategy = BpKind.ofCode c.bpKind) :
    c.changesKind s = false := by
  rw [Bool.eq_false_iff]
  intro hch
  obtain ⟨hen, hfresh, k, hk, hne⟩ := (changesKind_iff c s).1 hch
  rcases h with hoff | hrst | hnone | hsame
  · simp [hen] at hoff
  · simp [hfresh] at hrst
  · simp [hk] at hnone
  · exact hne (hsame.symm.trans hk)

end Begin

/-- Settles O59: the loader's checks come down to the change of kind; a bp_rst edge resets BPU, and of a cycle's calls only
predict binds it. -/
theorem kindChangesNeedAFreshPredictor : Obligations.KindChangesNeedAFreshPredictor := by
  refine ⟨fun c s hlen hwf hkind => ⟨fun hfree => ?_, fun hen hfresh k hk hne => ?_⟩, fun s t hb h => ?_,
    fun s t hr hb h => ⟨step_strategy_of_no_call s t hr hb h, fun p => step_strategy_of_call s t p hr hb h⟩⟩
  · have hbreach : c.breach s = none := by
      simp [breach_of_legal c s hlen hwf hkind, changesKind_eq_false c s hfree]
    exact ⟨_, beginRun_of_breach_none c s hbreach⟩
  · have hch : c.changesKind s = true := (changesKind_iff c s).2 ⟨hen, hfresh, k, hk, hne⟩
    have hbreach : c.breach s = some .kindChangedWithoutBpReset := by
      simp [breach_of_legal c s hlen hwf hkind, hch]
    exact beginRun_of_breach c s _ hbreach
  · rw [step_bpu_of_bpRst s t hb h]
    rfl

/-- Settles O44: PE's elements are the fields of State.reset, and every table of BPU is empty, so each entry is its reset
value. -/
theorem resetValues : Obligations.ResetValues := by
  refine ⟨rfl, rfl, rfl, rfl, rfl, rfl, rfl, rfl, rfl, rfl, rfl, rfl, rfl, rfl, rfl, rfl, fun p => ?_, rfl, rfl, rfl⟩
  simp only [Bpu.reset, Config.twoBitInit, Config.chooserInit, Table.get_nil, and_self]

/-- Settles O52, part by part: the engine's invariant as on any reset edge, and no word, table entry or instruction is
held. -/
theorem resetMeetsMachineInv : Obligations.ResetMeetsMachineInv :=
  (machineInv_iff State.reset).2 ⟨reset_engineInv, rfl, Bpu.reset_wf, rfl⟩

end Sys2Proof.Machine
end

section
/-! What the host alone drives: the ROM, the configuration and the reset inputs, and that no clock edge writes one of them
(spec/20_memory.md R60, R61, R72; spec/10_state.md R31). -/

namespace Sys2Proof.Machine

/-- Everything of a state that the host drives and the core only reads: the two reset inputs, the configuration (R31) and
the program ROM (R60). -/
structure Inputs where
  rst : Bool
  bpRst : Bool
  cfgFwdEn : Bool
  cfgBpEn : Bool
  cfgBpKind : BitVec 3
  cfgProgLen : BitVec 17
  rom : Memory

def State.inputs (s : State) : Inputs :=
  { rst := s.rst, bpRst := s.bpRst, cfgFwdEn := s.cfgFwdEn, cfgBpEn := s.cfgBpEn, cfgBpKind := s.cfgBpKind
    cfgProgLen := s.cfgProgLen, rom := s.rom }

theorem inputs_eq_iff (s t : State) :
    t.inputs = s.inputs ↔ t.rst = s.rst ∧ t.bpRst = s.bpRst ∧ t.cfgFwdEn = s.cfgFwdEn ∧ t.cfgBpEn = s.cfgBpEn ∧
      t.cfgBpKind = s.cfgBpKind ∧ t.cfgProgLen = s.cfgProgLen ∧ t.rom = s.rom := by
  simp only [State.inputs, Inputs.mk.injEq]

section Edges
variable (s : State)

@[simp] theorem cycle_inputs (o : Config.Oracle) (f : Option Instr) : (cycle o f s).inputs = s.inputs := rfl

@[simp] theorem resetBpu_inputs : s.resetBpu.inputs = s.inputs := rfl

/-- A rst edge resets PE, and BPU too when bp_rst is high; neither holds an input (R260, R263). -/
@[simp] theorem resetEdge_inputs : (resetEdge s).inputs = s.inputs := by
  rw [resetEdge_eq]
  rfl

/-- The cycle of a bp_rst edge runs under a kind that stands in for cfg_bp_kind; the edge itself shows the kind the host
drives (R263; notes/assumptions/21.md). -/
@[simp] theorem afterBpReset_cycle_directed_inputs (o : Config.Oracle) (f : Option Instr) :
    (s.afterBpReset (cycle o f s.directed)).inputs = s.inputs := rfl

end Edges

/-- Whatever the ROM port delivers, a cycle that answers a next state is one cycle of PE. -/
theorem portCycle_next_eq_cycle (s u : State) (hh : s.halted = false) (h : portCycle s = .next u) :
    ∃ f, u = cycle Config.branchOracle f s := by
  obtain ⟨_, ⟨_, hu⟩ | ⟨_, w, _, _, hu⟩⟩ := portCycle_next_cases s u hh h
  · exact ⟨none, hu⟩
  · exact ⟨some (decode w), hu⟩

/-- On a bp_rst edge outside a run too, with PE's cycle beside it or in the halted state, the inputs stay. -/
theorem step_inputs_of_bpRst (s t : State) (hr : s.rst = false) (hb : s.bpRst = true) (h : step s = .next t) :
    t.inputs = s.inputs := by
  rcases step_next_cases s t h with ⟨hhigh, _⟩ | ⟨_, _, _, hedge⟩ | ⟨_, hlow, _⟩ | ⟨_, hlow, _⟩
  · simp [hr] at hhigh
  · rcases hedge with ⟨_, rfl⟩ | ⟨hh, _, u, hu, rfl⟩
    · exact resetBpu_inputs s
    · obtain ⟨f, rfl⟩ := portCycle_next_eq_cycle s.directed u hh hu
      exact afterBpReset_cycle_directed_inputs s _ f
  · simp [hb] at hlow
  · simp [hb] at hlow

/-- Every edge that answers a next state, reset edges included, leaves the inputs as the host drives them. -/
theorem step_inputs (s t : State) (h : step s = .next t) : t.inputs = s.inputs := by
  cases hr : s.rst with
  | true =>
    rw [step_of_rst s hr] at h
    cases h
    exact resetEdge_inputs s
  | false =>
    cases hb : s.bpRst with
    | true => exact step_inputs_of_bpRst s t hr hb h
    | false =>
      rcases step_next_of_resets_low s t hr hb h with ⟨_, rfl⟩ | ⟨_, f, rfl⟩
      · rfl
      · exact cycle_inputs s _ f

/-- Settles O48: the three kinds of edge each keep the inputs as a whole. -/
theorem inputsAreNeverWritten : Obligations.InputsAreNeverWritten := by
  intro s t h
  obtain ⟨hrst, hbpRst, hfwd, hbpEn, hkind, hlen, hrom⟩ := (inputs_eq_iff s t).1 (step_inputs s t h)
  exact ⟨hrom, hlen, hfwd, hbpEn, hkind, hrst, hbpRst⟩

end Sys2Proof.Machine
end

section
/-! The instruction word (spec/30_encoding.md): decoding undoes encoding, what encoding a decoded word gives, and where each
field stands. -/

namespace Sys2Proof

section Parts
variable (w : Word)

theorem decode_op : (decode w).op = Op.ofBits (w.extractLsb' 0 3) := ofOp_op _ _

theorem decode_fields : (decode w).fields = Fields.ofWord w := ofOp_fields _ _

/-- The six bits of a decoded register operand field are the word's own, from the index's lowest bit up (R80). -/
theorem operand_ofWord_bits_getLsbD (lo k : Nat) (hk : k < 6) :
    (Operand.ofWord w lo).bits.getLsbD k = w.getLsbD (lo + k) := by
  obtain hlt | rfl : k < 5 ∨ k = 5 := by omega
  · rw [operand_bits_index _ k hlt]
    simp [Operand.ofWord, hlt]
  · exact operand_bits_present _

/-- A register operand field is its six bits: none is dropped (R82). -/
theorem operand_ofWord_eq (lo : Nat) (o : Operand) (h : ∀ k < 6, w.getLsbD (lo + k) = o.bits.getLsbD k) :
    Operand.ofWord w lo = o := by
  have hpresent : w.getLsbD (lo + 5) = o.present := by rw [h 5 (by omega), operand_bits_present]
  have hindex : w.extractLsb' lo 5 = o.index := by
    apply BitVec.eq_of_getLsbD_eq
    intro k hk
    simpa [hk, operand_bits_index o k hk] using h k (by omega)
  simp only [Operand.ofWord, hpresent, hindex]

end Parts

section RoundTrip

/-- Each field of an encoded instruction is read back from where it was written (R80). -/
theorem fields_ofWord_encode (i : Instr) : Fields.ofWord (encode i) = i.fields := by
  have hrd : Operand.ofWord (encode i) 6 = i.fields.rd := operand_ofWord_eq _ _ _ fun k hk => by
    simp (disch := omega) only [encode_getLsbD, if_neg, if_pos, Nat.add_sub_cancel_left]
  have hrs1 : Operand.ofWord (encode i) 12 = i.fields.rs1 := operand_ofWord_eq _ _ _ fun k hk => by
    simp (disch := omega) only [encode_getLsbD, if_neg, if_pos, Nat.add_sub_cancel_left]
  have hrs2 : Operand.ofWord (encode i) 18 = i.fields.rs2 := operand_ofWord_eq _ _ _ fun k hk => by
    simp (disch := omega) only [encode_getLsbD, if_neg, if_pos, Nat.add_sub_cancel_left]
  have himm : (encode i).extractLsb' 32 16 = i.fields.imm := BitVec.eq_of_getLsbD_eq fun k hk => by
    simp (disch := omega) only [BitVec.getLsbD_extractLsb', encode_getLsbD, if_neg, if_pos, Nat.add_sub_cancel_left,
      hk, decide_true, Bool.true_and]
  have hid : (encode i).extractLsb' 48 16 = i.fields.id := BitVec.eq_of_getLsbD_eq fun k hk => by
    simp (disch := omega) only [BitVec.getLsbD_extractLsb', encode_getLsbD, if_neg, Nat.add_sub_cancel_left,
      hk, decide_true, Bool.true_and]
  simp only [Fields.ofWord, hrd, hrs1, hrs2, himm, hid]

/-- Decoding undoes encoding: the opcode number and every field come back. -/
@[simp] theorem decode_encode (i : Instr) : decode (encode i) = i := by
  rw [decode, encode_low_bits, fields_ofWord_encode, ofBits_bits, ofOp_self]

end RoundTrip

section Reserved
variable (w : Word)

/-- Bits 5:3 and 31:24 are cleared, and every other bit of the word stays (R85). -/
theorem clearReserved_getLsbD (k : Nat) :
    (clearReserved w).getLsbD k = if 3 ≤ k ∧ k < 6 ∨ 24 ≤ k ∧ k < 32 then false else w.getLsbD k := by
  have hmask : ∀ j < 64, (0xFFFFFFFF00FFFFC7 : Word).getLsbD j = !decide (3 ≤ j ∧ j < 6 ∨ 24 ≤ j ∧ j < 32) := by
    decide
  rw [clearReserved, BitVec.getLsbD_and]
  by_cases hk : k < 64
  · rw [hmask k hk]
    split_ifs with hres <;> simp [hres]
  · rw [BitVec.getLsbD_of_ge w k (by omega), Bool.false_and, ite_self]

/-- Encoding a decoded word gives the word back, but for the reserved bits (R85): the two agree on each of the eight fields
of R80. -/
theorem encode_decode : encode (decode w) = clearReserved w := by
  apply BitVec.eq_of_getLsbD_eq
  intro k hk
  obtain h | h | h | h | h | h | h | h : k < 3 ∨ (3 ≤ k ∧ k < 6) ∨ (6 ≤ k ∧ k < 12) ∨ (12 ≤ k ∧ k < 18) ∨
    (18 ≤ k ∧ k < 24) ∨ (24 ≤ k ∧ k < 32) ∨ (32 ≤ k ∧ k < 48) ∨ (48 ≤ k ∧ k < 64) := by omega
  all_goals
    simp (disch := omega) only [encode_getLsbD, clearReserved_getLsbD, if_pos, if_neg, decode_op, decode_fields,
      bits_ofBits, Fields.ofWord, operand_ofWord_bits_getLsbD, BitVec.getLsbD_extractLsb', decide_eq_true,
      Bool.true_and, Nat.zero_add, Nat.add_sub_cancel']

end Reserved

section Numbers
variable (w : Word)

/-- The opcode by the word's remainder modulo 8 (R81). -/
theorem decode_op_of_mod_eight (n : Nat) (h : w.toNat % 8 = n) : (decode w).op = Op.ofBits (BitVec.ofNat 3 n) := by
  have hlow : w.extractLsb' 0 3 = BitVec.ofNat 3 n := BitVec.eq_of_toNat_eq (by simp [← h])
  rw [decode_op, hlow]

theorem operand_ofWord_index_toNat (lo : Nat) : (Operand.ofWord w lo).index.toNat = w.toNat / 2 ^ lo % 32 := by
  simp [Operand.ofWord, Nat.shiftRight_eq_div_pow]

theorem operand_ofWord_present_iff (lo : Nat) :
    (Operand.ofWord w lo).present = true ↔ w.toNat / 2 ^ (lo + 5) % 2 = 1 := by
  simp [Operand.ofWord, BitVec.getLsbD, Nat.testBit_eq_decide_div_mod_eq]

/-- The immediate is the two's complement reading of its 16 bits (R83). -/
theorem fields_ofWord_imm_toInt :
    (Fields.ofWord w).imm.toInt =
      if w.toNat / 2 ^ 32 % 2 ^ 16 < 2 ^ 15 then (w.toNat / 2 ^ 32 % 2 ^ 16 : Int)
      else (w.toNat / 2 ^ 32 % 2 ^ 16 : Int) - 2 ^ 16 := by
  have hbits : (Fields.ofWord w).imm.toNat = w.toNat / 2 ^ 32 % 2 ^ 16 := by
    simp [Fields.ofWord, Nat.shiftRight_eq_div_pow]
  rw [BitVec.toInt_eq_toNat_cond, hbits]
  push_cast
  split_ifs <;> omega

/-- The id fills the top of the word, so its division needs no remainder (R84). -/
theorem fields_ofWord_id_toNat : (Fields.ofWord w).id.toNat = w.toNat / 2 ^ 48 := by
  have hw := w.isLt
  simp only [Fields.ofWord, BitVec.extractLsb'_toNat, Nat.shiftRight_eq_div_pow]
  omega

end Numbers

/-- Settles O1: the opcode number and each field are read back from their own bits of the encoding. -/
theorem decodeOfEncode : Obligations.DecodeOfEncode := decode_encode

/-- Settles O2: a word decodes as the encoding of what it decodes to, and that encoding is the cleared word. -/
theorem reservedBitsAreIgnored : Obligations.ReservedBitsAreIgnored := by
  refine fun w => ⟨?_, encode_decode w, fun hwf => ?_⟩
  · rw [← encode_decode, decode_encode]
  · simp only [wordWf, reservedClear, Bool.and_eq_true, beq_iff_eq] at hwf
    obtain ⟨hreserved, _⟩ := hwf
    exact hreserved

/-- Settles O4: the positions of R80, read as division and remainder. -/
theorem fieldPositions : Obligations.FieldPositions := by
  intro w
  rw [decode_fields]
  exact ⟨operand_ofWord_index_toNat w 6, operand_ofWord_present_iff w 6,
    operand_ofWord_index_toNat w 12, operand_ofWord_present_iff w 12,
    operand_ofWord_index_toNat w 18, operand_ofWord_present_iff w 18,
    fields_ofWord_imm_toInt w, fields_ofWord_id_toNat w⟩

/-- Settles O3: the remainder modulo 8 is the op field, and each of its eight values selects an opcode. -/
theorem opcodeNumbers : Obligations.OpcodeNumbers := fun w =>
  ⟨decode_op_of_mod_eight w 0, decode_op_of_mod_eight w 1, decode_op_of_mod_eight w 2, decode_op_of_mod_eight w 3,
    decode_op_of_mod_eight w 4, decode_op_of_mod_eight w 5, decode_op_of_mod_eight w 6, decode_op_of_mod_eight w 7⟩

/-- Settles O5: eight concrete words, each decoded by evaluation. -/
theorem specWordsDecode : Obligations.SpecWordsDecode := by
  refine ⟨?_, ?_, ?_, ?_, ?_, ?_, ?_, ?_⟩ <;> decide

end Sys2Proof
end

section
/-! Progress within the contract, and changes of instructions that no rule sees: one that keeps every role and every
immediate, such as clearing the ids or merging the twins SUB and BNE into ADD and BEQ, commutes with a step, part by part
(spec/30_encoding.md R84, R94; spec/40_instructions.md R100, R104, R108). -/

namespace Sys2Proof.Machine

/-- Settles O47: a cycle makes no fetch or finds a word at the address fetched, and runs either way. -/
theorem everyCycleInContractRuns : Obligations.EveryCycleInContractRuns := by
  intro s he hc hrom
  obtain ⟨f, hstep, _⟩ := step_of_romLoaded s hrom he hc
  exact ⟨_, hstep⟩

/-- A change of instructions that the pipeline cannot see: it reads an instruction only through its role and, for a branch,
its immediate (R100, R110). -/
structure Unseen (g : Instr → Instr) : Prop where
  role : ∀ i, roleOf (g i) = roleOf i
  imm : ∀ i, (g i).fields.imm = i.fields.imm

/-- No role and no immediate holds the id (R84). -/
theorem unseen_eraseId : Unseen eraseId where
  role i := by cases i <;> rfl
  imm i := by cases i <;> rfl

/-- SUB has ADD's role and BNE has BEQ's (R104, R108). -/
theorem unseen_mergeTwins : Unseen mergeTwins where
  role i := by cases i <;> rfl
  imm i := by cases i <;> rfl

/-- Changing the entries of sparse storage keeps their addresses. -/
theorem sparseFind_map {α β : Type} (h : α → β) (m : List (Nat × α)) (a : Nat) :
    sparseFind (m.map fun e => (e.1, h e.2)) a = (sparseFind m a).map h := by
  induction m with
  | nil => rfl
  | cons e rest ih =>
    simp only [List.map_cons, sparseFind, ih]
    split <;> rfl

section Changed
variable (g : Instr → Instr) (s : State)

@[simp] theorem mapInstr_ifid : (s.mapInstr g).ifid = s.ifid.mapInstr g := rfl
@[simp] theorem mapInstr_idex : (s.mapInstr g).idex = { s.idex with latch := s.idex.latch.mapInstr g } := rfl
@[simp] theorem mapInstr_exmem : (s.mapInstr g).exmem = s.exmem.mapInstr g := rfl
@[simp] theorem mapInstr_memwb : (s.mapInstr g).memwb = s.memwb.mapInstr g := rfl
@[simp] theorem mapInstr_cfgFwdEn : (s.mapInstr g).cfgFwdEn = s.cfgFwdEn := rfl
@[simp] theorem mapInstr_cfgProgLen : (s.mapInstr g).cfgProgLen = s.cfgProgLen := rfl
@[simp] theorem mapInstr_pc : (s.mapInstr g).pc = s.pc := rfl
@[simp] theorem mapInstr_halted : (s.mapInstr g).halted = s.halted := rfl
@[simp] theorem mapInstr_mRetired : (s.mapInstr g).mRetired = s.mRetired := rfl
@[simp] theorem mapInstr_bpu : (s.mapInstr g).bpu = s.bpu := rfl
@[simp] theorem mapInstr_flushing : flushing (s.mapInstr g) = flushing s := rfl
@[simp] theorem mapInstr_countedFlush : countedFlush (s.mapInstr g) = countedFlush s := rfl
@[simp] theorem mapInstr_attached : attached (s.mapInstr g) = attached s := rfl
@[simp] theorem mapInstr_contractBreach : contractBreach (s.mapInstr g) = contractBreach s := rfl
@[simp] theorem mapInstr_duringRun : duringRun (s.mapInstr g) = duringRun s := rfl
@[simp] theorem mapInstr_directed : (s.mapInstr g).directed = s.directed.mapInstr g := rfl

theorem mapInstr_resetEdge : resetEdge (s.mapInstr g) = (resetEdge s).mapInstr g := by
  simp only [resetEdge_eq]
  rfl

/-- The changed ROM holds the encoding of the changed instruction at each address. -/
theorem mapInstr_read (a : Nat) :
    Memory.read (s.mapInstr g).rom a = (Memory.read s.rom a).map fun w => encode (g (decode w)) :=
  sparseFind_map (fun w => encode (g (decode w))) s.rom a

end Changed

section Views
variable {g : Instr → Instr} (hg : Unseen g) (l : Latch)
include hg

theorem mapInstr_dst : (l.mapInstr g).dst = l.dst := by
  cases l <;> simp [Latch.mapInstr, hg.role]

theorem mapInstr_src1 : (l.mapInstr g).src1 = l.src1 := by
  cases l <;> simp [Latch.mapInstr, hg.role]

theorem mapInstr_src2 : (l.mapInstr g).src2 = l.src2 := by
  cases l <;> simp [Latch.mapInstr, hg.role]

theorem mapInstr_late : (l.mapInstr g).late = l.late := by
  cases l <;> simp [Latch.mapInstr, hg.role]

theorem mapInstr_retires : (l.mapInstr g).retires = l.retires := by
  cases l <;> simp [Latch.mapInstr, hg.role]

theorem mapInstr_halts : (l.mapInstr g).halts = l.halts := by
  cases l <;> simp [Latch.mapInstr, hg.role]

theorem mapInstr_consumes (r : Reg) : (l.mapInstr g).consumes r = l.consumes r := by
  simp only [Latch.consumes, mapInstr_src1 hg, mapInstr_src2 hg]

theorem mapInstr_dependsOn (p : Latch) : dependsOn (l.mapInstr g) (p.mapInstr g) = dependsOn l p := by
  simp only [dependsOn, mapInstr_dst hg, mapInstr_consumes hg]

theorem mapInstr_callFor (k : Option BpKind) : callFor (l.mapInstr g) k = callFor l k := by
  cases k <;> cases l <;> simp [callFor, Latch.mapInstr, hg.role, hg.imm]

/-- A branch in EX resolves alike: the reference oracle reads only the immediate (R111; notes/assumptions/7.md). -/
theorem mapInstr_resolve (x : IdEx) :
    resolve Config.branchOracle { x with latch := x.latch.mapInstr g } = resolve Config.branchOracle x := by
  obtain ⟨l, v, t⟩ := x
  cases l <;> simp [resolve, Latch.mapInstr, Config.branchOracle, hg.role, hg.imm]

end Views

section Cycle
variable {g : Instr → Instr} (hg : Unseen g) (s : State)
include hg

theorem mapInstr_hazard : hazard (s.mapInstr g) = hazard s := by
  simp [hazard, detect, hazardStall, mapInstr_late hg, mapInstr_dependsOn hg]

theorem mapInstr_arm : arm (s.mapInstr g) = arm s := by
  simp [arm, mapInstr_hazard hg]

theorem mapInstr_nextHalted : nextHalted (s.mapInstr g) = nextHalted s := by
  simp [nextHalted, mapInstr_halts hg]

theorem mapInstr_nextRetired : nextRetired (s.mapInstr g) = nextRetired s := by
  simp [nextRetired, mapInstr_retires hg]

theorem mapInstr_predictCall : predictCall (s.mapInstr g) = predictCall s := by
  simp [predictCall, mapInstr_arm hg, mapInstr_callFor hg]

theorem mapInstr_predicted : predicted (s.mapInstr g) = predicted s := by
  simp [predicted, mapInstr_predictCall hg]

theorem mapInstr_fetchAddr : fetchAddr (s.mapInstr g) = fetchAddr s := by
  simp [fetchAddr, mapInstr_predictCall hg]

theorem mapInstr_fetchSlot : fetchSlot (s.mapInstr g) = fetchSlot s := by
  simp [fetchSlot, mapInstr_arm hg, mapInstr_fetchAddr hg, mapInstr_nextHalted hg]

theorem mapInstr_mispredict :
    mispredict Config.branchOracle (s.mapInstr g) = mispredict Config.branchOracle s := by
  simp [mispredict, mapInstr_resolve hg]

theorem mapInstr_nextPc : nextPc Config.branchOracle (s.mapInstr g) = nextPc Config.branchOracle s := by
  simp [nextPc, mapInstr_mispredict hg, mapInstr_fetchSlot hg, mapInstr_fetchAddr hg]

theorem mapInstr_nextFlush : nextFlush Config.branchOracle (s.mapInstr g) = nextFlush Config.branchOracle s := by
  simp [nextFlush, mapInstr_mispredict hg]

theorem mapInstr_nextBpu : nextBpu Config.branchOracle (s.mapInstr g) = nextBpu Config.branchOracle s := by
  simp [nextBpu, updateCall, mapInstr_predictCall hg, mapInstr_resolve hg]

theorem mapInstr_nextIdex :
    nextIdex (s.mapInstr g) = { nextIdex s with latch := (nextIdex s).latch.mapInstr g } := by
  simp only [nextIdex, mapInstr_arm hg, mapInstr_predicted hg]
  cases arm s with
  | flush => rfl
  | rawStall => rfl
  | advance => cases predicted s <;> rfl

theorem mapInstr_nextIfid (f : Option Instr) :
    nextIfid Config.branchOracle (f.map g) (s.mapInstr g) = (nextIfid Config.branchOracle f s).mapInstr g := by
  simp only [nextIfid, mapInstr_mispredict hg, mapInstr_arm hg, mapInstr_fetchSlot hg]
  cases mispredict Config.branchOracle s with
  | some r => rfl
  | none =>
    cases arm s with
    | flush => rfl
    | rawStall => rfl
    | advance => cases fetchSlot s <;> cases f <;> rfl

/-- One cycle of the changed state, with the changed instruction delivered, is the change of the cycle. -/
theorem mapInstr_cycle (f : Option Instr) :
    cycle Config.branchOracle (f.map g) (s.mapInstr g) = (cycle Config.branchOracle f s).mapInstr g := by
  simp only [cycle, mapInstr_nextHalted hg, mapInstr_nextRetired hg, mapInstr_nextIdex hg, mapInstr_nextIfid hg,
    mapInstr_nextPc hg, mapInstr_nextFlush hg, mapInstr_arm hg, mapInstr_idex, mapInstr_resolve hg,
    mapInstr_mispredict hg, mapInstr_nextBpu hg]
  rfl

theorem mapInstr_runCycle (f : Option Instr) :
    runCycle (f.map g) (s.mapInstr g) = mapNext (State.mapInstr g) (runCycle f s) := by
  simp only [runCycle, mapInstr_halted, mapInstr_contractBreach, mapInstr_cycle hg]
  split
  · rfl
  · cases contractBreach s <;> rfl

/-- The changed ROM delivers the changed instruction, since decoding undoes encoding. -/
theorem mapInstr_portCycle : portCycle (s.mapInstr g) = mapNext (State.mapInstr g) (portCycle s) := by
  simp only [portCycle, fetchOffer, mapInstr_fetchSlot hg, mapInstr_read]
  cases fetchSlot s with
  | none => exact mapInstr_runCycle hg s none
  | some a =>
    cases hread : Memory.read s.rom a.toNat with
    | none => simp [hread, mapNext]
    | some w => simpa [hread] using mapInstr_runCycle hg s (some (decode w))

theorem mapInstr_bpResetEdge : bpResetEdge (s.mapInstr g) = mapNext (State.mapInstr g) (bpResetEdge s) := by
  simp only [bpResetEdge, mapInstr_duringRun, mapInstr_halted, mapInstr_contractBreach, mapInstr_directed,
    mapInstr_portCycle hg]
  split
  · rfl
  · split
    · rfl
    · cases contractBreach s with
      | some r => rfl
      | none => cases portCycle s.directed <;> rfl

end Cycle

/-- With both resets low an edge is the cycle with what the ROM port delivers (R190, R208). -/
theorem step_of_resets_low (s : State) (hr : s.rst = false) (hb : s.bpRst = false) : step s = portCycle s := by
  simp only [step, hr, hb, Bool.false_eq_true, if_false, exec_eq_runCycle]
  rfl

theorem step_of_bpRst (s : State) (hr : s.rst = false) (hb : s.bpRst = true) : step s = bpResetEdge s := by
  simp [step, hr, hb]

/-- Changing the instructions before a step or after it is the same, on each kind of edge. -/
theorem mapInstr_step {g : Instr → Instr} (hg : Unseen g) (s : State) :
    step (s.mapInstr g) = mapNext (State.mapInstr g) (step s) := by
  cases hr : s.rst with
  | true =>
    rw [step_of_rst s hr, step_of_rst (s.mapInstr g) hr, mapInstr_resetEdge]
    rfl
  | false =>
    cases hb : s.bpRst with
    | true =>
      rw [step_of_bpRst s hr hb, step_of_bpRst (s.mapInstr g) hr hb]
      exact mapInstr_bpResetEdge hg s
    | false =>
      rw [step_of_resets_low s hr hb, step_of_resets_low (s.mapInstr g) hr hb]
      exact mapInstr_portCycle hg s

/-- Settles O55: no role and no immediate tells an id, or a twin from its pair, so both changes commute with step. -/
theorem idsAndTwinNamesDoNotMatter : Obligations.IdsAndTwinNamesDoNotMatter := by
  rintro g s (rfl | rfl)
  · exact mapInstr_step unseen_eraseId s
  · exact mapInstr_step unseen_mergeTwins s

end Sys2Proof.Machine
end

section
/-! The engine's invariants R220 to R226 over one cycle, under any oracle and with whatever the ROM port delivers
(spec/43_pipeline_engine.md). Only the contract is needed: a legal predictor kind, a program of at most PMAX words, and a
cycle counter that is not full. -/

namespace Sys2Proof.Machine

section Counters

/-- A count that is not at its maximum counts an event on without a wrap. -/
theorem countIf_toNat (e : Bool) (c : Count) (h : c.toNat + 1 < 2 ^ 64) : (countIf e c).toNat = c.toNat + e.toNat := by
  cases e with
  | false => rfl
  | true =>
    simp only [countIf_true, BitVec.toNat_add, Bool.toNat_true]
    exact Nat.mod_eq_of_lt h

/-- In the contract the cycle counter has room for this cycle (I15). -/
theorem mCycles_room_of_contract (s : State) (hc : contractBreach s = none) : s.mCycles.toNat + 1 < 2 ^ 64 := by
  obtain ⟨_, _, hne⟩ := (contractBreach_eq_none s).1 hc
  have hlt := s.mCycles.isLt
  by_contra hfull
  exact hne (BitVec.eq_of_toNat_eq (by rw [BitVec.toNat_allOnes]; omega))

/-- One cycle is a stall of at most one cause. -/
theorem stall_counts_exclude (s : State) : (arm s == .rawStall).toNat + (arm s == .flush).toNat ≤ 1 := by
  cases arm s <;> decide

/-- Only a branch that resolves can mispredict (R203). -/
theorem mispredict_le_resolve (o : Config.Oracle) (s : State) :
    (mispredict o s).isSome.toNat ≤ (resolve o s.idex).isSome.toNat := by
  cases hm : mispredict o s with
  | none => exact Nat.zero_le _
  | some r => simp [((mispredict_eq_some o s r).1 hm).1]

theorem metricsBounded_iff (s : State) :
    metricsBounded s = true ↔ s.mRetired.toNat ≤ s.mCycles.toNat ∧
      s.mRawStalls.toNat + s.mControlStalls.toNat ≤ s.mCycles.toNat ∧ s.mBpPredictions.toNat ≤ s.mCycles.toNat ∧
      s.mBpMispredictions.toNat ≤ s.mBpPredictions.toNat := by
  simp [metricsBounded, and_assoc]

end Counters

section Parts
variable (o : Config.Oracle) (f : Option Instr) (s : State)

/-- R220: a fetch puts the instruction at the address just before the new pc; a held IFID keeps its pc. -/
theorem cycle_pcAgrees (h : pcAgrees s = true) (hc : contractBreach s = none) : pcAgrees (cycle o f s) = true := by
  rcases nextIfid_cases o f s with ⟨_, hl⟩ | ⟨hm, ha, hl⟩ | ⟨hm, _, ⟨a, i, hs, _, hl⟩ | ⟨_, hl⟩⟩
  · simp [pcAgrees, hl]
  · have hpc : nextPc o s = s.pc := by simp [nextPc, hm, fetchSlot_of_arm s ha]
    simpa only [pcAgrees, cycle_ifid, cycle_pc, hl, hpc] using h
  · obtain ⟨_, hp, _, rfl⟩ := (fetchSlot_eq_some s a).1 hs
    obtain ⟨_, hlen, _⟩ := (contractBreach_eq_none s).1 hc
    obtain ⟨_, _, hnext⟩ := inProgram_pos _ _ hp hlen
    simpa [pcAgrees, hl, nextPc, hm, hs] using hnext
  · simp [pcAgrees, hl]

/-- R221: a misprediction arms the countdown and squashes IFID together; a countdown that goes on holds IFID. -/
theorem cycle_flushHoldsBubble (h : flushHoldsBubble s = true) : flushHoldsBubble (cycle o f s) = true := by
  rcases nextIfid_cases o f s with ⟨_, hl⟩ | ⟨hm, _, hl⟩ | ⟨hm, ha, _⟩
  · simp [flushHoldsBubble, hl]
  · cases hf : flushing s with
    | true =>
      have hbubble : s.ifid = .bubble .flush := by simpa [flushHoldsBubble, hf] using h
      simp [flushHoldsBubble, hl, hbubble]
    | false =>
      have hzero : s.flush = 0 := by simpa [flushing] using hf
      simp [flushHoldsBubble, flushing, nextFlush, hm, countedFlush, hzero]
  · have hzero : s.flush = 0 := flush_of_arm s (by simp [ha])
    simp [flushHoldsBubble, flushing, nextFlush, hm, countedFlush, hzero]

/-- R222: the countdown is armed with 2 and only counts down. -/
theorem cycle_flushLegal (h : flushLegal s = true) : flushLegal (cycle o f s) = true := by
  simp only [flushLegal, cycle_flush, nextFlush, bne_iff_ne] at h ⊢
  cases mispredict o s with
  | some r => exact (by decide : Config.flushLen ≠ 3)
  | none =>
    simp only [countedFlush, flushing, bne_iff_ne]
    split
    · bv_omega
    · exact h

/-- R224: m_cycles grows by 1, and every other counter by no more. -/
theorem cycle_metricsBounded (h : metricsBounded s = true) (hc : contractBreach s = none) :
    metricsBounded (cycle o f s) = true := by
  have hroom := mCycles_room_of_contract s hc
  obtain ⟨hret, hstall, hpred, hmis⟩ := (metricsBounded_iff s).1 h
  have hcyc : (s.mCycles + 1).toNat = s.mCycles.toNat + 1 := countIf_toNat true s.mCycles hroom
  have hexcl := stall_counts_exclude s
  have hsub := mispredict_le_resolve o s
  have hone := Bool.toNat_le s.memwb.retires
  have hres := Bool.toNat_le (resolve o s.idex).isSome
  rw [metricsBounded_iff]
  simp only [cycle_mCycles, cycle_mRetired, nextRetired, cycle_mRawStalls, cycle_mControlStalls, cycle_mBpPredictions,
    cycle_mBpMispredictions, hcyc]
  rw [countIf_toNat _ s.mRetired (by omega), countIf_toNat _ s.mRawStalls (by omega),
    countIf_toNat _ s.mControlStalls (by omega), countIf_toNat _ s.mBpPredictions (by omega),
    countIf_toNat _ s.mBpMispredictions (by omega)]
  omega

/-- In the contract a predictor that is enabled is attached (R31, R164). -/
theorem attached_isSome_of_contract (hc : contractBreach s = none) (he : s.cfgBpEn = true) :
    (attached s).isSome = true := by
  obtain ⟨hkind, _, _⟩ := (contractBreach_eq_none s).1 hc
  simp [attached, he, hkind he]

theorem cfgBpEn_of_attached (k : BpKind) (h : attached s = some k) : s.cfgBpEn = true := by
  unfold attached at h
  split at h
  · assumption
  · cases h

/-- With a predictor enabled no branch leaves ID without a predict call (R198). -/
theorem not_branch_of_no_call (hc : contractBreach s = none) (ha : arm s = .advance) (he : s.cfgBpEn = true)
    (hp : predictCall s = none) : s.ifid.isBranch = false := by
  obtain ⟨k, hk⟩ := Option.isSome_iff_exists.1 (attached_isSome_of_contract s hc he)
  cases hl : s.ifid with
  | bubble b => rfl
  | instr i p =>
    cases hb : (roleOf i).branch with
    | false => exact hb
    | true => simp [predictCall_of_branch s i p k ha hl hb hk] at hp

/-- R225: what leaves ID has a record exactly when a predict call was made for it. -/
theorem cycle_recordConsistent (hc : contractBreach s = none) : recordConsistent (cycle o f s) = true := by
  rcases nextIdex_cases s with ⟨_, hx⟩ | ⟨_, hx⟩ | ⟨ha, ⟨hp, hx⟩ | ⟨c, hp, hx⟩⟩
  · simp [recordConsistent, hx]
  · simp [recordConsistent, hx]
  · cases he : s.cfgBpEn with
    | false => simp [recordConsistent, hx, he]
    | true => simp [recordConsistent, hx, he, not_branch_of_no_call s hc ha he hp]
  · obtain ⟨_, i, hi, hb, hk, _⟩ := (predictCall_eq_some s c).1 hp
    simp [recordConsistent, hx, hi, hb, cfgBpEn_of_attached s c.kind hk]

/-- R226: a stall holds IFID and puts its bubble in IDEX. -/
theorem cycle_ifidLabelLegal (h : ifidLabelLegal s = true) : ifidLabelLegal (cycle o f s) = true := by
  rcases nextIfid_cases o f s with ⟨_, hl⟩ | ⟨_, _, hl⟩ | ⟨_, _, ⟨a, i, _, _, hl⟩ | ⟨_, hl⟩⟩
  · simp [ifidLabelLegal, hl]
  · simpa only [ifidLabelLegal, cycle_ifid, hl] using h
  · simp [ifidLabelLegal, hl]
  · simp [ifidLabelLegal, hl]

end Parts

/-- Settles O53: each of the six parts is kept by a cycle in the contract, and none asks what the oracle answers. -/
theorem engineInvHoldsUnderEveryOracle : Obligations.EngineInvHoldsUnderEveryOracle := by
  intro o f s hinv hc
  obtain ⟨hpc, hheld, hlegal, hmetrics, _, hlabel⟩ := (engineInv_iff s).1 hinv
  exact (engineInv_iff _).2 ⟨cycle_pcAgrees o f s hpc hc, cycle_flushHoldsBubble o f s hheld, cycle_flushLegal o f s hlegal,
    cycle_metricsBounded o f s hmetrics hc, cycle_recordConsistent o f s hc, cycle_ifidLabelLegal o f s hlabel⟩

end Sys2Proof.Machine
end

section
/-! What each instruction is to the pipeline, by its opcode (spec/40_instructions.md R100 to R114): the registers it
produces and consumes, whether it is a branch and where that goes, and its effect in WB. -/

namespace Sys2Proof.Machine

section Roles
variable (i : Instr)

/-- ADD, SUB and LOAD have a destination (R101). -/
theorem roleOf_dst :
    (roleOf i).dst = if i.op = .add ∨ i.op = .sub ∨ i.op = .load then operandReg i.fields.rd else none := by
  cases i <;> rfl

/-- Every opcode but NOP and HALT has a first source (R102). -/
theorem roleOf_src1 :
    (roleOf i).src1 = if i.op = .nop ∨ i.op = .halt then none else operandReg i.fields.rs1 := by
  cases i <;> rfl

/-- LOAD's base is its one source, so it has no second (R102, R86). -/
theorem roleOf_src2 :
    (roleOf i).src2 =
      if i.op = .add ∨ i.op = .sub ∨ i.op = .store ∨ i.op = .beq ∨ i.op = .bne then operandReg i.fields.rs2
      else none := by
  cases i <;> rfl

/-- BEQ and BNE are the branches (R109). -/
theorem roleOf_branch : (roleOf i).branch = true ↔ i.op = .beq ∨ i.op = .bne := by
  cases i <;> simp [roleOf, roleAdd, roleSub, roleLoad, roleStore, roleBeq, roleBne, roleNop, roleHalt, Instr.op]

/-- Only NOP and HALT are not counted in WB, and only HALT halts there (R114). -/
theorem roleOf_wb :
    (roleOf i).wb = if i.op = .nop then .nothing else if i.op = .halt then .halts else .retires := by
  cases i <;> rfl

end Roles

/-- An operand field names the register of its index where its present bit is set (R82). -/
theorem operandReg_eq_some (x : Operand) (r : Reg) : operandReg x = some r ↔ x.present = true ∧ x.index = r := by
  simp [operandReg]

theorem consumes_iff (l : Latch) (r : Reg) : l.consumes r = true ↔ l.src1 = some r ∨ l.src2 = some r := by
  simp [Latch.consumes]

/-- Settles O6: the destination and the two sources by opcode, each an operand field that is present. -/
theorem producersAndConsumersByOpcode : Obligations.ProducersAndConsumersByOpcode := by
  refine ⟨fun i p r => ?_, fun i p r => ?_, fun b r => ⟨rfl, rfl⟩⟩
  · simp [roleOf_dst, operandReg_eq_some]
  · rw [consumes_iff, src1_instr, src2_instr, roleOf_src1, roleOf_src2]
    cases hop : i.op <;> simp [operandReg_eq_some]

/-- Settles O7: the effect in WB and the branch class by opcode. -/
theorem retireHaltAndBranchClasses : Obligations.RetireHaltAndBranchClasses := by
  refine ⟨fun i p => ⟨?_, ?_, roleOf_branch i⟩, fun b => ⟨rfl, rfl, rfl⟩⟩
  · rw [retires_instr, roleOf_wb]
    cases hop : i.op <;> simp
  · rw [halts_instr, roleOf_wb]
    cases hop : i.op <;> simp

/-- The reference oracle takes a branch whose immediate is negative, whatever the branch is (R111; notes/assumptions/7.md). -/
theorem branchOracle_eq (i : Instr) (p : Pos) : Config.branchOracle i p = decide (i.fields.imm.toInt < 0) := by
  simp [Config.branchOracle, BitVec.slt]

/-- Settles O9: the oracle reads nothing of a branch but its immediate. -/
theorem referenceOracleReadsTheSign : Obligations.ReferenceOracleReadsTheSign := by
  refine fun f p => ⟨?_, rfl⟩
  rw [branchOracle_eq]
  exact decide_eq_true_iff

section Addresses

/-- A small address has the same reading as a signed and as an unsigned number. -/
theorem fallthrough_toInt (p : Pos) : (fallthrough p).toInt = p.toNat + 1 := by
  have hp := p.isLt
  have hnat : (fallthrough p).toNat = p.toNat + 1 := by
    simp [fallthrough, BitVec.toNat_add]
    omega
  rw [BitVec.toInt_eq_toNat_cond, hnat]
  split <;> omega

/-- A 16-bit position and a 16-bit displacement cannot leave the 32-bit range (R10). -/
theorem target_toInt (p : Pos) (imm : Imm) : (target p imm).toInt = p.toNat + 1 + imm.toInt := by
  have hp := p.isLt
  have hlow := BitVec.le_toInt imm
  have hhigh := BitVec.toInt_lt (x := imm)
  rw [target, BitVec.toInt_add, fallthrough_toInt, BitVec.toInt_signExtend_of_le (by omega)]
  exact Int.bmod_eq_of_le (by omega) (by omega)

end Addresses

/-- Settles O8: no sum of a position, 1 and an immediate wraps. -/
theorem branchAddressesAreExact : Obligations.BranchAddressesAreExact :=
  fun p imm => ⟨target_toInt p imm, fallthrough_toInt p, rfl⟩

end Sys2Proof.Machine
end

section
/-! The life of an instruction: the cycle that fetches it, and, from an idle pipe at the last word of the program, the cycles
that carry it through ID, EX, MEM and WB (spec/40_instructions.md R103 to R114, spec/43_pipeline_engine.md R192 to R204).
Behind the last word nothing is fetched, so such a cycle only moves the pipe on: that is State.drained, and what a branch
adds to it is written over it. -/

namespace Sys2Proof.Machine

section Cycles
variable (s : State)

/-- Without a countdown and without a hazard the cycle is one of normal advance (R197). -/
theorem arm_of_no_stall (hf : s.flush = 0) (hz : (hazard s).stall = false) : arm s = .advance := by
  rcases arm_cases s with ⟨_, hne⟩ | ⟨_, _, hst⟩ | ⟨ha, _⟩
  · exact absurd hf hne
  · simp [hz] at hst
  · exact ha

theorem arm_of_flush_ne_zero (hf : s.flush ≠ 0) : arm s = .flush := by
  by_contra ha
  exact hf (flush_of_arm s ha)

/-- Nothing waits for a bubble (R132, R133). -/
theorem hazard_of_bubbles_ahead (hex : ∃ b, s.idex.latch = .bubble b) (hmem : ∃ b, s.exmem = .bubble b)
    (hwb : ∃ b, s.memwb = .bubble b) : (hazard s).stall = false := by
  obtain ⟨_, hex⟩ := hex
  obtain ⟨_, hmem⟩ := hmem
  obtain ⟨_, hwb⟩ := hwb
  simp [hazard, detect, hazardStall, dependsOn, hex, hmem, hwb]

theorem fetchAddr_of_no_call (h : predictCall s = none) : fetchAddr s = s.pc := by
  simp [fetchAddr, h]

theorem fetchSlot_of_out_of_program (h : inProgram (fetchAddr s) s.cfgProgLen = false) : fetchSlot s = none := by
  simp only [fetchSlot, h, Bool.false_and]
  cases arm s <;> rfl

theorem nextIdex_of_no_call (ha : arm s = .advance) (hp : predictCall s = none) : nextIdex s = IdEx.plain s.ifid := by
  simp [nextIdex, ha, predicted, hp]

/-- Normal advance happens without a countdown, and only a misprediction arms one (R195, R203). -/
theorem nextFlush_of_advance (ha : arm s = .advance) (hm : mispredict Config.branchOracle s = none) :
    nextFlush Config.branchOracle s = s.flush := by
  simp [nextFlush, hm, countedFlush, flushing, flush_of_arm s (by simp [ha])]

/-- The two calls of a cycle: the predict call for the branch that leaves ID, then the training by the branch in EX (R154). -/
theorem nextBpu_eq_trained : nextBpu Config.branchOracle s = bpuTrained s (bpuPredicted s) := by
  rw [nextBpu_eq]
  unfold bpuTrained resolve
  cases hl : s.idex.latch with
  | bubble b => cases attached s <;> rfl
  | instr i p =>
    cases attached s with
    | none => rfl
    | some k =>
      by_cases hb : (roleOf i).branch = true
      · simp only [hb, (roleOf_branch i).1 hb, if_true]
      · have hop : ¬(i.op = .beq ∨ i.op = .bne) := mt (roleOf_branch i).2 hb
        simp only [hb, hop, if_false, Bool.false_eq_true]

theorem bpuTrained_of_not_branch (b : Bpu) (h : s.idex.latch.isBranch = false) : bpuTrained s b = b := by
  unfold bpuTrained
  cases hl : s.idex.latch with
  | bubble _ => rfl
  | instr i p =>
    have hop : ¬(i.op = .beq ∨ i.op = .bne) := fun hop => by simp [hl, (roleOf_branch i).2 hop] at h
    cases attached s with
    | none => rfl
    | some k => exact if_neg hop

end Cycles

/-- Settles O27: in normal advance without a predict call the fetch is at pc, and without a misprediction no later step
overrides what it leaves. -/
theorem everyInstructionEntersThePipe : Obligations.EveryInstructionEntersThePipe := by
  intro i s hh hc ha hw hp hm hin
  have haddr : fetchAddr s = s.pc := fetchAddr_of_no_call s hp
  have hhalt : nextHalted s = s.halted := by simp [nextHalted, hw]
  have hslot : fetchSlot s = some (s.pc.setWidth 16) :=
    (fetchSlot_eq_some s _).2 ⟨ha, by rw [haddr]; exact hin, hhalt.trans hh, by rw [haddr]⟩
  have hflush : nextFlush Config.branchOracle s = s.flush := nextFlush_of_advance s ha hm
  have hifid : nextIfid Config.branchOracle (some i) s = .instr i (s.pc.setWidth 16) := by
    simp [nextIfid, hm, ha, hslot]
  have hpc : nextPc Config.branchOracle s = s.pc + 1 := by simp [nextPc, hm, hslot, haddr]
  rw [exec_next i s hh hc]
  simp only [cycle, hhalt, hflush, hifid, hpc, hm, ha, nextIdex_of_no_call s ha hp, resolve_isSome, nextBpu_eq_trained,
    bpuPredicted_of_no_call s hp]
  rfl

section Drained

/-- The state after a cycle that moves every latch value one stage on and fetches nothing. -/
def State.drained (s : State) : State :=
  { s with
    halted := nextHalted s, mRetired := nextRetired s
    ifid := .bubble .empty, idex := IdEx.plain s.ifid, exmem := s.idex.latch, memwb := s.exmem
    mCycles := s.mCycles + 1, inRun := true }

/-- The state after a cycle of the flush arm with no branch in EX: ID is held and a FLUSH bubble enters IDEX (R195). -/
def State.flushed (s : State) : State :=
  { s.drained with
    ifid := s.ifid, idex := IdEx.plain (.bubble .flush), flush := s.flush - 1, mControlStalls := s.mControlStalls + 1 }

variable (s : State)

@[simp] theorem drained_ifid : s.drained.ifid = .bubble .empty := rfl
@[simp] theorem drained_idex : s.drained.idex = IdEx.plain s.ifid := rfl
@[simp] theorem drained_exmem : s.drained.exmem = s.idex.latch := rfl
@[simp] theorem drained_memwb : s.drained.memwb = s.exmem := rfl

/-- A cycle of normal advance whose fetch fails and whose branch, if one is in EX, was guessed right. -/
theorem step_of_failed_fetch (he : executes s = true) (hc : contractBreach s = none) (ha : arm s = .advance)
    (hs : fetchSlot s = none) (hm : mispredict Config.branchOracle s = none) :
    step s = .next
      { s.drained with
        idex := nextIdex s, bpu := bpuTrained s (bpuPredicted s)
        mBpPredictions := countIf s.idex.latch.isBranch s.mBpPredictions } := by
  have hflush : nextFlush Config.branchOracle s = s.flush := nextFlush_of_advance s ha hm
  have hifid : nextIfid Config.branchOracle none s = .bubble .empty := by simp [nextIfid, hm, ha]
  have hpc : nextPc Config.branchOracle s = s.pc := by simp [nextPc, hm, hs]
  rw [step_of_no_fetch s he hc hs]
  simp only [cycle, hflush, hifid, hpc, hm, ha, resolve_isSome, nextBpu_eq_trained]
  rfl

/-- A cycle of normal advance whose fetch fails and whose branch in EX was guessed wrong (R203, R204). -/
theorem step_of_mispredict (r : Resolution) (he : executes s = true) (hc : contractBreach s = none)
    (ha : arm s = .advance) (hs : fetchSlot s = none) (hm : mispredict Config.branchOracle s = some r) :
    step s = .next
      { s.drained with
        ifid := .bubble .flush, idex := nextIdex s, bpu := bpuTrained s (bpuPredicted s), pc := r.correct, flush := 2
        mBpPredictions := s.mBpPredictions + 1, mBpMispredictions := s.mBpMispredictions + 1 } := by
  have hr : resolve Config.branchOracle s.idex = some r := ((mispredict_eq_some _ s r).1 hm).1
  have hflush : nextFlush Config.branchOracle s = 2 := by simp [nextFlush, hm, Config.flushLen]
  have hifid : nextIfid Config.branchOracle none s = .bubble .flush := by simp [nextIfid, hm]
  have hpc : nextPc Config.branchOracle s = r.correct := by simp [nextPc, hm]
  rw [step_of_no_fetch s he hc hs]
  simp only [cycle, hflush, hifid, hpc, hm, hr, ha, nextBpu_eq_trained]
  rfl

theorem step_of_flush (he : executes s = true) (hc : contractBreach s = none) (hf : s.flush ≠ 0)
    (hex : s.idex.latch.isBranch = false) : step s = .next s.flushed := by
  have hon : flushing s = true := bne_iff_ne.2 hf
  have ha : arm s = .flush := arm_of_flush_ne_zero s hf
  have hm : mispredict Config.branchOracle s = none := mispredict_of_not_branch _ s hex
  have hs : fetchSlot s = none := fetchSlot_of_arm s (by simp [ha])
  have hp : predictCall s = none := by simp [predictCall, ha]
  have hflush : nextFlush Config.branchOracle s = s.flush - 1 := by simp [nextFlush, hm, countedFlush, hon]
  have hifid : nextIfid Config.branchOracle none s = s.ifid := by simp [nextIfid, hm, ha]
  have hidex : nextIdex s = IdEx.plain (.bubble .flush) := by simp [nextIdex, ha]
  have hpc : nextPc Config.branchOracle s = s.pc := by simp [nextPc, hm, hs]
  rw [step_of_no_fetch s he hc hs]
  simp only [cycle, hflush, hifid, hidex, hpc, hm, ha, resolve_of_not_branch _ s.idex hex,
    nextBpu_of_no_calls _ s hp (resolve_of_not_branch _ s.idex hex)]
  rfl

/-- There is room for k more cycles, and none of them makes a fetch while no branch redirects pc. -/
structure Draining (k : Nat) (s : State) : Prop where
  executes : executes s = true
  room : roomFor k s = true
  noFlush : s.flush = 0
  past : inProgram s.pc s.cfgProgLen = false

variable {s} {k : Nat}

theorem Draining.contract (h : Draining k s) : contractBreach s = none := contract_of_roomFor k s h.room

theorem executes_drained (he : Machine.executes s = true) (hw : s.memwb.halts = false) :
    Machine.executes s.drained = true :=
  executes_cycle Config.branchOracle none s he hw

theorem roomFor_drained (h : roomFor (k + 2) s = true) : roomFor (k + 1) s.drained = true :=
  roomFor_cycle Config.branchOracle none (k + 2) s (by omega) h

/-- The pipe goes on draining after a cycle in which no HALT retires. -/
theorem Draining.drained (h : Draining (k + 2) s) (hw : s.memwb.halts = false) : Draining (k + 1) s.drained :=
  ⟨executes_drained h.executes hw, roomFor_drained h.room, h.noFlush, h.past⟩

/-- A draining pipe with no branch in ID or EX only moves on. -/
theorem Draining.step (h : Draining k s) (hz : (hazard s).stall = false) (hid : s.ifid.isBranch = false)
    (hex : s.idex.latch.isBranch = false) : step s = .next s.drained := by
  have ha : arm s = .advance := arm_of_no_stall s h.noFlush hz
  have hp : predictCall s = none := predictCall_of_not_branch s hid
  have hs : fetchSlot s = none := fetchSlot_of_out_of_program s (by rw [fetchAddr_of_no_call s hp]; exact h.past)
  rw [step_of_failed_fetch s h.executes h.contract ha hs (mispredict_of_not_branch _ s hex), nextIdex_of_no_call s ha hp,
    bpuTrained_of_not_branch s _ hex, bpuPredicted_of_no_call s hp, hex]
  rfl

end Drained

section Idle
variable {s : State} {a : Pos}

/-- What an idle pipe is, part by part. -/
theorem pipeIdle_iff (s : State) (a : Pos) :
    pipeIdle s a = true ↔ executes s = true ∧ s.flush = 0 ∧ s.pc = a.setWidth 32 ∧
      s.cfgProgLen.toNat = a.toNat + 1 ∧ (∃ b, s.ifid = .bubble b) ∧ (∃ b, s.idex.latch = .bubble b) ∧
      (∃ b, s.exmem = .bubble b) ∧ ∃ b, s.memwb = .bubble b := by
  simp [pipeIdle, ← kind_ne_instr, and_assoc]

theorem setWidth_pos_toInt (a : Pos) : (a.setWidth 32 : Addr).toInt = a.toNat := by
  have ha := a.isLt
  rw [BitVec.toInt_eq_toNat_cond, BitVec.toNat_setWidth, Nat.mod_eq_of_lt (by omega)]
  exact if_pos (by omega)

/-- The state after the cycle that fetches i at address a into an idle pipe. -/
def State.fetched (s : State) (i : Instr) (a : Pos) : State :=
  { s with
    ifid := .instr i a, idex := IdEx.plain s.ifid, exmem := s.idex.latch, memwb := s.exmem
    pc := s.pc + 1, mCycles := s.mCycles + 1, inRun := true }

@[simp] theorem fetched_ifid (i : Instr) : (s.fetched i a).ifid = .instr i a := rfl
@[simp] theorem fetched_idex (i : Instr) : (s.fetched i a).idex = IdEx.plain s.ifid := rfl
@[simp] theorem fetched_exmem (i : Instr) : (s.fetched i a).exmem = s.idex.latch := rfl
@[simp] theorem fetched_memwb (i : Instr) : (s.fetched i a).memwb = s.exmem := rfl

theorem exec_of_pipeIdle (i : Instr) (h : pipeIdle s a = true) (hroom : roomFor 5 s = true) :
    exec i s = .next (s.fetched i a) := by
  obtain ⟨he, hf, hpc, hlen, ⟨b, hid⟩, ⟨_, hex⟩, _, ⟨_, hwb⟩⟩ := (pipeIdle_iff s a).1 h
  obtain ⟨_, _, hh⟩ := (executes_iff s).1 he
  have ha : arm s = .advance := arm_of_no_stall s hf (hazard_bubble s b hid)
  have hp : predictCall s = none := predictCall_of_bubble s b hid
  have hbr : s.idex.latch.isBranch = false := by rw [hex]; rfl
  have hin : inProgram s.pc s.cfgProgLen = true := by
    rw [inProgram_iff, hpc, setWidth_pos_toInt, hlen]
    omega
  have hpos : (s.pc.setWidth 16 : Pos) = a := by simp [hpc]
  rw [everyInstructionEntersThePipe i s hh (contract_of_roomFor 5 s hroom) ha (by rw [hwb]; rfl) hp
    (mispredict_of_not_branch _ s hbr) hin, hpos, bpuTrained_of_not_branch s _ hbr]
  simp [State.fetched, hbr, hwb]

/-- The fall-through of the last word is past the end of the program. -/
theorem fallthrough_past_end (n : BitVec 17) (h : n.toNat = a.toNat + 1) : inProgram (fallthrough a) n = false := by
  rw [Bool.eq_false_iff]
  intro hin
  obtain ⟨_, hlt⟩ := (inProgram_iff _ _).1 hin
  rw [fallthrough_toInt] at hlt
  omega

theorem pc_succ_of_pipeIdle (h : pipeIdle s a = true) : s.pc + 1 = fallthrough a := by
  obtain ⟨_, _, hpc, _⟩ := (pipeIdle_iff s a).1 h
  rw [hpc]
  rfl

/-- Behind the last word the pipe drains. -/
theorem draining_fetched (i : Instr) (h : pipeIdle s a = true) (hroom : roomFor 5 s = true) :
    Draining 4 (s.fetched i a) := by
  obtain ⟨he, hf, _, hlen, _⟩ := (pipeIdle_iff s a).1 h
  refine ⟨he, roomFor_drained (s := s) hroom, hf, ?_⟩
  change inProgram (s.pc + 1) s.cfgProgLen = false
  rw [pc_succ_of_pipeIdle h]
  exact fallthrough_past_end _ hlen

theorem hazard_fetched (i : Instr) (h : pipeIdle s a = true) : (hazard (s.fetched i a)).stall = false := by
  obtain ⟨_, _, _, _, hid, hex, hmem, _⟩ := (pipeIdle_iff s a).1 h
  exact hazard_of_bubbles_ahead (s.fetched i a) hid hex hmem

/-- The state before the fifth cycle of an instruction i that is no branch: i is in WB and the pipe behind it is empty. -/
def State.atWriteBack (s : State) (i : Instr) (a : Pos) : State :=
  { s with
    ifid := .bubble .empty, idex := IdEx.plain (.bubble .empty), exmem := .bubble .empty, memwb := .instr i a
    pc := s.pc + 1, mCycles := s.mCycles + 4, inRun := true }

/-- An instruction that is no branch reaches WB in three cycles after its fetch, with nothing else changed. -/
theorem run_fetched_to_writeBack (i : Instr) (hi : (roleOf i).branch = false) (h : pipeIdle s a = true)
    (hroom : roomFor 5 s = true) :
    (∀ n, Host.Core.run core (n + 3) (s.fetched i a) = Host.Core.run core n (s.atWriteBack i a)) ∧
      Draining 1 (s.atWriteBack i a) := by
  obtain ⟨_, _, _, _, ⟨_, hid⟩, ⟨_, hex⟩, ⟨_, hmem⟩, _⟩ := (pipeIdle_iff s a).1 h
  have d1 : Draining 4 (s.fetched i a) := draining_fetched i h hroom
  have d2 : Draining 3 (s.fetched i a).drained := d1.drained (by simp [hmem])
  have d3 : Draining 2 (s.fetched i a).drained.drained := d2.drained (by simp [hex])
  have d4 : Draining 1 (s.fetched i a).drained.drained.drained := d3.drained (by simp [hid])
  have hlast : (s.fetched i a).drained.drained.drained = s.atWriteBack i a := by
    simp [State.drained, State.fetched, State.atWriteBack, nextHalted, nextRetired, hid, hex, hmem, BitVec.add_assoc]
  rw [← hlast]
  refine ⟨fun n => ?_, d4⟩
  have st1 := d1.step (hazard_fetched i h) hi (by simp [hid])
  have st2 := d2.step (hazard_bubble _ .empty rfl) rfl hi
  have st3 := d3.step (hazard_bubble _ .empty rfl) rfl rfl
  rw [run_succ (n + 2) _ _ st1, run_succ (n + 1) _ _ st2, run_succ n _ _ st3]

theorem step_atWriteBack (i : Instr) (hd : Draining 1 (s.atWriteBack i a)) :
    step (s.atWriteBack i a) = .next (s.atWriteBack i a).drained :=
  hd.step (hazard_bubble _ .empty rfl) rfl rfl

/-- The fifth cycle leaves an empty pipe, and what else it does is the instruction's effect in WB (R114). -/
theorem drained_atWriteBack (i : Instr) :
    (s.atWriteBack i a).drained =
      { s with
        ifid := .bubble .empty, idex := IdEx.reset, exmem := .bubble .empty, memwb := .bubble .empty
        pc := s.pc + 1, mCycles := s.mCycles + 5, inRun := true
        halted := s.halted || (roleOf i).wb == .halts
        mRetired := countIf ((roleOf i).wb == .retires) s.mRetired } := by
  have hcyc : s.mCycles + 4 + 1 = s.mCycles + 5 := BitVec.add_assoc _ _ _
  simp only [State.drained, State.atWriteBack, hcyc]
  rfl

end Idle

/-- Settles O28: the instruction reaches WB in an otherwise empty pipe and, unless it is the NOP, is counted there. -/
theorem loneInstructionPassesThrough : Obligations.LoneInstructionPassesThrough := by
  intro f i s a hi h hroom
  have hbranch : (roleOf i).branch = false := by rcases hi with rfl | rfl | rfl | rfl | rfl <;> rfl
  obtain ⟨hrun, hd⟩ := run_fetched_to_writeBack i hbranch h hroom
  refine ⟨s.fetched i a, exec_of_pipeIdle i h hroom, ?_⟩
  rw [hrun 1, run_succ 0 _ _ (step_atWriteBack i hd), run_zero, drained_atWriteBack]
  rcases hi with rfl | rfl | rfl | rfl | rfl <;> simp [roleOf_wb, Instr.op]

/-- Settles O29: the HALT reaches WB with the core still running, and the next step halts it. -/
theorem loneHaltHalts : Obligations.LoneHaltHalts := by
  intro f s a h hroom
  obtain ⟨hrun, hd⟩ := run_fetched_to_writeBack (.halt f) rfl h hroom
  obtain ⟨he, _⟩ := (pipeIdle_iff s a).1 h
  obtain ⟨_, _, hh⟩ := (executes_iff s).1 he
  refine ⟨s.fetched (.halt f) a, s.atWriteBack (.halt f) a, exec_of_pipeIdle _ h hroom, hrun 0, hh, ?_⟩
  rw [step_atWriteBack _ hd, drained_atWriteBack]
  simp [roleOf_wb, Instr.op]

end Sys2Proof.Machine
end


section
/-! The life of a branch that runs alone at the last word of the program: predicted in ID, resolved in EX, and, after a wrong
guess, followed by the two control stalls of the countdown (spec/40_instructions.md R107, R108,
spec/43_pipeline_engine.md R198 to R204). -/

namespace Sys2Proof.Machine

section Guess
variable (s : State) (a : Pos)

/-- The guess for a branch at address a when it leaves ID: what the attached predictor answers, or not taken (R198, R201). -/
def State.guessAt : Bool :=
  match attached s with
  | some k => predictTaken k s.bpu a
  | none => false

/-- BPU after the predict call for a branch at address a, if a predictor is attached. -/
def State.calledAt : Bpu :=
  match attached s with
  | some k => predictState k s.bpu a
  | none => s.bpu

/-- BPU after that call and the training with the outcome. -/
def State.trainedAt (taken : Bool) : Bpu :=
  match attached s with
  | some k => updateState k (predictState k s.bpu a) a taken
  | none => s.bpu

/-- Without a record the guess is not taken (R201). -/
theorem attached_and_guessAt : ((attached s).isSome && s.guessAt a) = s.guessAt a := by
  unfold State.guessAt
  cases attached s <;> rfl

end Guess

section Branch
variable {s : State} {a : Pos} {i : Instr}

/-- The state in which the branch i is in EX, with its guess recorded if a predictor is attached. -/
def State.atExecute (s : State) (i : Instr) (a : Pos) : State :=
  { (s.fetched i a).drained with
    idex := { latch := .instr i a, predV := (attached s).isSome, predT := s.guessAt a }, bpu := s.calledAt a }

@[simp] theorem atExecute_exmem : (s.atExecute i a).exmem = s.ifid := rfl
@[simp] theorem atExecute_memwb : (s.atExecute i a).memwb = s.idex.latch := rfl

/-- The predict call of the branch's cycle in ID; it finds BPU as it was before the fetch. -/
theorem predictCall_fetched (hi : (roleOf i).branch = true) (ha : arm (s.fetched i a) = .advance) :
    predictCall (s.fetched i a) =
      (attached s).map fun k => { kind := k, pos := a, imm := i.fields.imm } := by
  cases hk : attached s with
  | none => exact predictCall_of_attached_none _ hk
  | some k => exact predictCall_of_branch _ i a k ha rfl hi hk

/-- A branch at the last word with its target outside the program is followed by no fetch, whatever the prediction. -/
theorem fetchAddr_fetched_past (hi : (roleOf i).branch = true) (hd : Draining 4 (s.fetched i a))
    (ha : arm (s.fetched i a) = .advance) (hend : s.cfgProgLen.toNat = a.toNat + 1)
    (hout : inProgram (target a i.fields.imm) s.cfgProgLen = false) :
    inProgram (fetchAddr (s.fetched i a)) s.cfgProgLen = false := by
  have hp := predictCall_fetched hi ha
  cases hk : attached s with
  | none =>
    rw [fetchAddr_of_no_call _ (by simpa [hk] using hp)]
    exact hd.past
  | some k =>
    simp only [fetchAddr, hp, hk, Option.map_some, continueAt]
    split
    · exact hout
    · exact fallthrough_past_end _ hend

/-- What leaves ID is the branch with its guess. -/
theorem nextIdex_fetched (hi : (roleOf i).branch = true) (ha : arm (s.fetched i a) = .advance) :
    nextIdex (s.fetched i a) = (s.atExecute i a).idex := by
  have hp := predictCall_fetched hi ha
  cases hk : attached s <;> simp only [nextIdex, ha, predicted, hp, hk, State.atExecute, State.guessAt] <;> rfl

theorem bpuPredicted_fetched (hi : (roleOf i).branch = true) (ha : arm (s.fetched i a) = .advance) :
    bpuPredicted (s.fetched i a) = s.calledAt a := by
  have hp := predictCall_fetched hi ha
  cases hk : attached s <;> simp only [bpuPredicted, hp, hk, State.calledAt] <;> rfl

/-- The branch's cycle in ID. -/
theorem step_fetched_branch (hi : (roleOf i).branch = true) (h : pipeIdle s a = true) (hroom : roomFor 5 s = true)
    (hout : inProgram (target a i.fields.imm) s.cfgProgLen = false) :
    step (s.fetched i a) = .next (s.atExecute i a) ∧ Draining 3 (s.atExecute i a) := by
  obtain ⟨_, _, _, hend, ⟨_, hid⟩, _, ⟨_, hmem⟩, _⟩ := (pipeIdle_iff s a).1 h
  have hd : Draining 4 (s.fetched i a) := draining_fetched i h hroom
  have ha : arm (s.fetched i a) = .advance := arm_of_no_stall _ hd.noFlush (hazard_fetched i h)
  have hbr : (s.fetched i a).idex.latch.isBranch = false := by simp [hid]
  have hs : fetchSlot (s.fetched i a) = none :=
    fetchSlot_of_out_of_program _ (fetchAddr_fetched_past hi hd ha hend hout)
  have hd' : Draining 3 (s.fetched i a).drained := hd.drained (by simp [hmem])
  refine ⟨?_, hd'.executes, hd'.room, hd'.noFlush, hd'.past⟩
  rw [step_of_failed_fetch _ hd.executes hd.contract ha hs (mispredict_of_not_branch _ _ hbr), nextIdex_fetched hi ha,
    bpuTrained_of_not_branch _ _ hbr, bpuPredicted_fetched hi ha, hbr]
  rfl

theorem resolve_atExecute (hi : (roleOf i).branch = true) :
    resolve Config.branchOracle (s.atExecute i a).idex =
      some
        { pos := a, actual := Config.branchOracle i a, guess := s.guessAt a
          correct := continueAt a i.fields.imm (Config.branchOracle i a) } :=
  (resolve_eq_some _ _ _).2 ⟨i, rfl, hi, rfl, (attached_and_guessAt s a).symm, rfl⟩

/-- The branch trains the predictor that guessed for it. -/
theorem bpuTrained_atExecute (hi : (roleOf i).branch = true) :
    bpuTrained (s.atExecute i a) (bpuPredicted (s.atExecute i a)) = s.trainedAt a (Config.branchOracle i a) := by
  have hp : predictCall (s.atExecute i a) = none := predictCall_of_bubble _ .empty rfl
  have hat : attached (s.atExecute i a) = attached s := rfl
  have hex : (s.atExecute i a).idex.latch = .instr i a := rfl
  rw [bpuPredicted_of_no_call _ hp]
  unfold bpuTrained State.trainedAt
  simp only [hat, hex]
  cases hk : attached s with
  | none => simp [State.atExecute, State.calledAt, hk]
  | some k => simp [(roleOf_branch i).1 hi, State.atExecute, State.calledAt, hk]

/-- The facts of the branch's cycle in EX that do not depend on the guess. -/
theorem atExecute_advances (hd : Draining 3 (s.atExecute i a)) :
    arm (s.atExecute i a) = .advance ∧ fetchSlot (s.atExecute i a) = none ∧
      nextIdex (s.atExecute i a) = IdEx.plain (.bubble .empty) := by
  have ha : arm (s.atExecute i a) = .advance := arm_of_no_stall _ hd.noFlush (hazard_bubble _ .empty rfl)
  have hp : predictCall (s.atExecute i a) = none := predictCall_of_bubble _ .empty rfl
  refine ⟨ha, fetchSlot_of_out_of_program _ ?_, nextIdex_of_no_call _ ha hp⟩
  rw [fetchAddr_of_no_call _ hp]
  exact hd.past

/-- The state after a branch in EX was found guessed right. -/
def State.guessedRight (s : State) (i : Instr) (a : Pos) : State :=
  { (s.atExecute i a).drained with
    mBpPredictions := s.mBpPredictions + 1, bpu := s.trainedAt a (Config.branchOracle i a) }

/-- The state after a branch in EX was found guessed wrong: pc redirected, IFID squashed, the countdown armed (R203, R204). -/
def State.guessedWrong (s : State) (i : Instr) (a : Pos) : State :=
  { s.guessedRight i a with
    ifid := .bubble .flush, pc := continueAt a i.fields.imm (Config.branchOracle i a), flush := 2
    mBpMispredictions := s.mBpMispredictions + 1 }

@[simp] theorem guessedRight_memwb : (s.guessedRight i a).memwb = s.ifid := rfl
@[simp] theorem guessedWrong_memwb : (s.guessedWrong i a).memwb = s.ifid := rfl
@[simp] theorem guessedWrong_flush : (s.guessedWrong i a).flush = 2 := rfl

theorem step_atExecute_of_right_guess (hi : (roleOf i).branch = true) (hd : Draining 3 (s.atExecute i a))
    (hg : s.guessAt a = Config.branchOracle i a) : step (s.atExecute i a) = .next (s.guessedRight i a) := by
  obtain ⟨ha, hs, hx⟩ := atExecute_advances hd
  have hm : mispredict Config.branchOracle (s.atExecute i a) = none := by simp [mispredict, resolve_atExecute hi, hg]
  have hbr : (s.atExecute i a).idex.latch.isBranch = true := hi
  rw [step_of_failed_fetch _ hd.executes hd.contract ha hs hm, hx, bpuTrained_atExecute hi, hbr]
  rfl

theorem step_atExecute_of_wrong_guess (hi : (roleOf i).branch = true) (hd : Draining 3 (s.atExecute i a))
    (hg : s.guessAt a ≠ Config.branchOracle i a) : step (s.atExecute i a) = .next (s.guessedWrong i a) := by
  obtain ⟨ha, hs, hx⟩ := atExecute_advances hd
  have hm := (mispredict_eq_some _ (s.atExecute i a) _).2 ⟨resolve_atExecute hi, hg⟩
  rw [step_of_mispredict _ _ hd.executes hd.contract ha hs hm, hx, bpuTrained_atExecute hi]
  rfl

/-- The state after a branch that runs alone has retired, with what its guess left behind it, where pc is, and the counters
of what a wrong guess costs. -/
def State.branchRetired (s : State) (i : Instr) (a : Pos) (left : Latch) (pc : Addr) (stalls misses : Count) : State :=
  { s with
    ifid := left, idex := IdEx.plain left, exmem := left, memwb := .bubble .empty, pc := pc
    mCycles := s.mCycles + 5, mRetired := s.mRetired + 1, mBpPredictions := s.mBpPredictions + 1
    mBpMispredictions := misses, mControlStalls := stalls
    bpu := s.trainedAt a (Config.branchOracle i a), inRun := true }

theorem wb_of_branch (hi : (roleOf i).branch = true) : (roleOf i).wb = .retires := by
  rw [roleOf_wb]
  rcases (roleOf_branch i).1 hi with hop | hop <;> simp [hop]

/-- After a right guess the pipe drains, and the branch retires in its fifth cycle. -/
theorem run_guessedRight (hi : (roleOf i).branch = true) (h : pipeIdle s a = true) (hd : Draining 3 (s.atExecute i a)) :
    Host.Core.run core 2 (s.guessedRight i a) =
      .next (s.branchRetired i a (.bubble .empty) (s.pc + 1) s.mControlStalls s.mBpMispredictions) := by
  obtain ⟨_, _, _, _, ⟨_, hid⟩, ⟨_, hex⟩, ⟨_, hmem⟩, _⟩ := (pipeIdle_iff s a).1 h
  have d2 : Draining 2 (s.atExecute i a).drained := hd.drained (by simp [hex])
  have d3 : Draining 2 (s.guessedRight i a) := ⟨d2.executes, d2.room, d2.noFlush, d2.past⟩
  have d4 : Draining 1 (s.guessedRight i a).drained := d3.drained (by simp [hid])
  have st3 := d3.step (hazard_bubble _ .empty rfl) rfl rfl
  have st4 := d4.step (hazard_bubble _ .empty rfl) rfl rfl
  rw [run_succ 1 _ _ st3, run_succ 0 _ _ st4, run_zero]
  simp [State.branchRetired, State.guessedRight, State.atExecute, State.drained, State.fetched, nextHalted, nextRetired,
    wb_of_branch hi, hid, hex, hmem, BitVec.add_assoc]

/-- After a wrong guess the countdown holds IFID for two cycles, and the branch retires in the second of them. -/
theorem run_guessedWrong (hi : (roleOf i).branch = true) (h : pipeIdle s a = true) (hd : Draining 3 (s.atExecute i a)) :
    Host.Core.run core 2 (s.guessedWrong i a) =
      .next (s.branchRetired i a (.bubble .flush) (continueAt a i.fields.imm (Config.branchOracle i a))
        (s.mControlStalls + 2) (s.mBpMispredictions + 1)) := by
  obtain ⟨_, hf, _, _, ⟨_, hid⟩, ⟨_, hex⟩, ⟨_, hmem⟩, _⟩ := (pipeIdle_iff s a).1 h
  have d2 : Draining 2 (s.atExecute i a).drained := hd.drained (by simp [hex])
  have he3 : executes (s.guessedWrong i a) = true := d2.executes
  have hr3 : roomFor 2 (s.guessedWrong i a) = true := d2.room
  have he4 : executes (s.guessedWrong i a).flushed = true := executes_drained he3 (by simp [hid])
  have hr4 : roomFor 1 (s.guessedWrong i a).flushed = true := roomFor_drained hr3
  have st3 := step_of_flush (s.guessedWrong i a) he3 (contract_of_roomFor 2 _ hr3) (by simp) rfl
  have st4 := step_of_flush (s.guessedWrong i a).flushed he4 (contract_of_roomFor 1 _ hr4) (by simp [State.flushed]) rfl
  rw [run_succ 1 _ _ st3, run_succ 0 _ _ st4, run_zero]
  simp [State.branchRetired, State.flushed, State.guessedWrong, State.guessedRight, State.atExecute, State.drained,
    State.fetched, nextHalted, nextRetired, wb_of_branch hi, hf, hid, hex, hmem, BitVec.add_assoc]

end Branch

/-- Settles O30: the branch is guessed for in ID and resolved in EX, and the two outcomes of the guess are the two ways the
pipe goes on to its retirement. -/
theorem loneBranchResolvesAndRetires : Obligations.LoneBranchResolvesAndRetires := by
  intro f i s a hi h hroom hout taken guess trained left
  have hbranch : (roleOf i).branch = true := by rcases hi with rfl | rfl <;> rfl
  have hfields : i.fields = f := by rcases hi with rfl | rfl <;> rfl
  have htaken : Config.branchOracle i a = taken := by rw [branchOracle_eq, hfields]
  have hguess : s.guessAt a = guess := rfl
  have htrained : trained = s.trainedAt a taken := rfl
  obtain ⟨st1, hd⟩ := step_fetched_branch hbranch h hroom (by rw [hfields]; exact hout)
  refine ⟨s.fetched i a, exec_of_pipeIdle i h hroom, ?_⟩
  rw [run_succ 3 _ _ st1]
  by_cases hg : guess = taken
  · have hright : s.guessAt a = Config.branchOracle i a := by rw [hguess, htaken, hg]
    rw [run_succ 2 _ _ (step_atExecute_of_right_guess hbranch hd hright), run_guessedRight hbranch h hd,
      pc_succ_of_pipeIdle h, State.branchRetired, htaken]
    simp only [left, hg, htrained, if_true]
  · have hwrong : s.guessAt a ≠ Config.branchOracle i a := by rwa [hguess, htaken]
    rw [run_succ 2 _ _ (step_atExecute_of_wrong_guess hbranch hd hwrong), run_guessedWrong hbranch h hd,
      State.branchRetired, htaken, hfields]
    simp only [left, hg, htrained, if_false]

end Sys2Proof.Machine
end

section
/-! The hazard detector (spec/41_hazard_detector.md R130 to R141): what makes an instruction in ID stall, which fields the
detector reads, which producer a source is forwarded from, and how many cycles a stall lasts. -/

namespace Sys2Proof.Machine

section Detector
variable (id ex mem wb p : Latch) (b : Bubble)

/-- The dependence of R132: the register that p produces is one that id consumes. -/
theorem dependsOn_iff : dependsOn id p = true ↔ ∃ r, p.dst = some r ∧ id.consumes r = true := by
  unfold dependsOn
  cases p.dst <;> simp

@[simp] theorem dependsOn_bubble : dependsOn id (.bubble b) = false := rfl

/-- Of all latch values only a LOAD has its result late (R134). -/
theorem late_iff : p.late = true ↔ ∃ f a, p = .instr (.load f) a := by
  cases p with
  | bubble b => simp
  | instr i a => cases i <;> simp [roleOf, roleAdd, roleSub, roleLoad, roleStore, roleBeq, roleBne, roleNop, roleHalt]

/-- The stages a producer is looked for in without forwarding (R133). -/
theorem detect_stall_without_forwarding :
    (detect false id ex mem wb).stall = (dependsOn id ex || dependsOn id mem || dependsOn id wb) := rfl

/-- With forwarding only EX is looked at (R134). -/
theorem detect_stall_with_forwarding : (detect true id ex mem wb).stall = (ex.late && dependsOn id ex) := rfl

theorem load_dst_eq_some (f : Fields) (a : Pos) (r : Reg) :
    (Latch.instr (.load f) a).dst = some r ↔ f.rd.present = true ∧ f.rd.index = r :=
  operandReg_eq_some f.rd r

end Detector

/-- Settles O10: the dependences on the stages that each setting looks at, spelt out. -/
theorem stallDecision : Obligations.StallDecision := by
  refine fun id ex mem wb => ⟨?_, ?_⟩
  · simp only [detect_stall_without_forwarding, Bool.or_eq_true, dependsOn_iff, or_and_right, exists_or, exists_eq_left,
      exists_and_left, or_assoc]
  · rw [detect_stall_with_forwarding, Bool.and_eq_true, late_iff, dependsOn_iff]
    constructor
    · rintro ⟨⟨f, a, rfl⟩, r, hdst, hc⟩
      obtain ⟨hp, rfl⟩ := (load_dst_eq_some f a r).1 hdst
      exact ⟨f, a, rfl, hp, hc⟩
    · rintro ⟨f, a, rfl, hp, hc⟩
      exact ⟨⟨f, a, rfl⟩, f.rd.index, (load_dst_eq_some f a _).2 ⟨hp, rfl⟩, hc⟩

section View
variable (l p : Latch)

/-- No role holds the immediate or the id (R100). -/
theorem roleOf_ofOp_imm_id (i : Instr) (m : Imm) (n : InstrId) :
    roleOf (Instr.ofOp i.op { i.fields with imm := m, id := n }) = roleOf i := by
  cases i <;> rfl

@[simp] theorem hazardView_dst : (hazardView l).dst = l.dst := by
  cases l <;> simp [hazardView, roleOf_ofOp_imm_id]

@[simp] theorem hazardView_src1 : (hazardView l).src1 = l.src1 := by
  cases l <;> simp [hazardView, roleOf_ofOp_imm_id]

@[simp] theorem hazardView_src2 : (hazardView l).src2 = l.src2 := by
  cases l <;> simp [hazardView, roleOf_ofOp_imm_id]

@[simp] theorem hazardView_late : (hazardView l).late = l.late := by
  cases l <;> simp [hazardView, roleOf_ofOp_imm_id]

@[simp] theorem hazardView_consumes (r : Reg) : (hazardView l).consumes r = l.consumes r := by
  simp only [Latch.consumes, hazardView_src1, hazardView_src2]

@[simp] theorem hazardView_dependsOn : dependsOn (hazardView l) (hazardView p) = dependsOn l p := by
  simp only [dependsOn, hazardView_dst, hazardView_consumes]

theorem hazardView_hazardStall (fwd : Bool) (id ex mem wb : Latch) :
    hazardStall fwd (hazardView id) (hazardView ex) (hazardView mem) (hazardView wb) = hazardStall fwd id ex mem wb := by
  simp only [hazardStall, hazardView_late, hazardView_dependsOn]

theorem hazardView_detect (fwd : Bool) (id ex mem wb : Latch) :
    detect fwd (hazardView id) (hazardView ex) (hazardView mem) (hazardView wb) = detect fwd id ex mem wb := by
  rw [detect, hazardView_hazardStall, detect]

theorem hazardView_forwardSelect (fwd : Bool) (src : Option Reg) (ex mem wb : Latch) :
    forwardSelect fwd src (hazardView ex) (hazardView mem) (hazardView wb) = forwardSelect fwd src ex mem wb := by
  simp only [forwardSelect, hazardView_dst]

end View

/-- Settles O11: the detector reads a latch value through dst, the sources and late, and the view keeps these. -/
theorem detectorIgnoresOtherFields : Obligations.DetectorIgnoresOtherFields := by
  refine fun fwd id ex mem wb => ⟨hazardView_detect fwd id ex mem wb, ?_, ?_⟩
  · rw [hazardView_forwardSelect, hazardView_src1]
  · rw [hazardView_forwardSelect, hazardView_src2]

section Select
variable {ex mem wb : Latch} {r : Reg}

theorem forwardSelect_off (src : Option Reg) : forwardSelect false src ex mem wb = .regfile := by
  cases src <;> rfl

theorem forwardSelect_of_ex (he : ex.dst = some r) : forwardSelect true (some r) ex mem wb = .ex := by
  simp [forwardSelect, he]

theorem forwardSelect_of_mem (he : ex.dst ≠ some r) (hm : mem.dst = some r) :
    forwardSelect true (some r) ex mem wb = .mem := by
  simp [forwardSelect, he, hm]

theorem forwardSelect_of_wb (he : ex.dst ≠ some r) (hm : mem.dst ≠ some r) (hw : wb.dst = some r) :
    forwardSelect true (some r) ex mem wb = .wb := by
  simp [forwardSelect, he, hm, hw]

theorem forwardSelect_of_no_producer (he : ex.dst ≠ some r) (hm : mem.dst ≠ some r) (hw : wb.dst ≠ some r) :
    forwardSelect true (some r) ex mem wb = .regfile := by
  simp [forwardSelect, he, hm, hw]

end Select

/-- Settles O12: the sources by opcode, and the chain of the select link by link. -/
theorem nearestProducerIsForwarded : Obligations.NearestProducerIsForwarded := by
  refine ⟨fun s => ⟨rfl, rfl⟩, fun i p r => ?_, fun i p r => ?_, fun b => ⟨rfl, rfl⟩, fun src ex mem wb => ?_⟩
  · simp [roleOf_src1, operandReg_eq_some]
  · simp [roleOf_src2, operandReg_eq_some]
  · exact ⟨forwardSelect_off src, rfl, fun _ => forwardSelect_of_ex, fun _ => forwardSelect_of_mem,
      fun _ => forwardSelect_of_wb, fun _ => forwardSelect_of_no_producer⟩

section Stalled

/-- The state after a cycle of the RAW-stall arm with no misprediction: ID and pc are held and a STALL bubble enters IDEX
(R196). -/
def State.stalled (s : State) : State :=
  { s.drained with
    ifid := s.ifid, idex := IdEx.plain (.bubble .stall), mRawStalls := s.mRawStalls + 1
    bpu := bpuTrained s s.bpu, mBpPredictions := countIf s.idex.latch.isBranch s.mBpPredictions }

variable (s : State)

@[simp] theorem stalled_ifid : s.stalled.ifid = s.ifid := rfl
@[simp] theorem stalled_idex : s.stalled.idex = IdEx.plain (.bubble .stall) := rfl
@[simp] theorem stalled_exmem : s.stalled.exmem = s.idex.latch := rfl
@[simp] theorem stalled_memwb : s.stalled.memwb = s.exmem := rfl
@[simp] theorem stalled_pc : s.stalled.pc = s.pc := rfl
@[simp] theorem stalled_flush : s.stalled.flush = s.flush := rfl
@[simp] theorem stalled_mRawStalls : s.stalled.mRawStalls = s.mRawStalls + 1 := rfl
@[simp] theorem stalled_cfgFwdEn : s.stalled.cfgFwdEn = s.cfgFwdEn := rfl

/-- Without a countdown a hazard takes the RAW-stall arm (R196). -/
theorem arm_of_stall (hf : s.flush = 0) (hz : (hazard s).stall = true) : arm s = .rawStall := by
  rcases arm_cases s with ⟨_, hne⟩ | ⟨ha, _⟩ | ⟨_, _, hst⟩
  · exact absurd hf hne
  · exact ha
  · simp [hz] at hst

/-- A RAW stall makes no fetch and no predict call, so only the branch in EX touches BPU. -/
theorem step_of_rawStall (he : executes s = true) (hc : contractBreach s = none) (ha : arm s = .rawStall)
    (hm : mispredict Config.branchOracle s = none) : step s = .next s.stalled := by
  have hs : fetchSlot s = none := fetchSlot_of_arm s (by simp [ha])
  have hp : predictCall s = none := by simp [predictCall, ha]
  have hflush : nextFlush Config.branchOracle s = s.flush := by
    simp [nextFlush, hm, countedFlush, flushing, flush_of_arm s (by simp [ha])]
  have hifid : nextIfid Config.branchOracle none s = s.ifid := by simp [nextIfid, hm, ha]
  have hidex : nextIdex s = IdEx.plain (.bubble .stall) := by simp [nextIdex, ha]
  have hpc : nextPc Config.branchOracle s = s.pc := by simp [nextPc, hm, hs]
  rw [step_of_no_fetch s he hc hs]
  simp only [cycle, hflush, hifid, hidex, hpc, hm, ha, resolve_isSome, nextBpu_eq_trained, bpuPredicted_of_no_call s hp]
  rfl

/-- With forwarding, the bubble that a stall puts in EX ends it (R140). -/
theorem arm_stalled_with_forwarding (hf : s.flush = 0) (hfwd : s.cfgFwdEn = true) : arm s.stalled = .advance := by
  refine arm_of_no_stall _ hf ?_
  simp [hazard, hfwd, detect_stall_with_forwarding]

end Stalled

/-- Settles O14: the LOAD in EX stalls its consumer, is no branch, and is followed by the bubble of the stall. -/
theorem loadUseStallsExactlyOnce : Obligations.LoadUseStallsExactlyOnce := by
  intro s f p he hroom hf hfwd hex hpresent hconsumes
  have hz : (hazard s).stall = true := by
    rw [hazard, hfwd, (stallDecision _ _ _ _).2]
    exact ⟨f, p, hex, hpresent, hconsumes⟩
  have ha : arm s = .rawStall := arm_of_stall s hf hz
  have hm : mispredict Config.branchOracle s = none := mispredict_of_not_branch _ s (by rw [hex]; rfl)
  exact ⟨ha, s.stalled, step_of_rawStall s he (contract_of_roomFor 1 s hroom) ha hm, rfl, rfl, rfl, rfl,
    arm_stalled_with_forwarding s hf hfwd⟩

section Waiting
variable (s : State)

/-- How many stages ahead of ID its nearest producer is: 1, 2, 3 for EX, MEM, WB, and 4 where there is none. -/
def producerDistance : Nat :=
  if dependsOn s.ifid s.idex.latch then 1 else if dependsOn s.ifid s.exmem then 2
    else if dependsOn s.ifid s.memwb then 3 else 4

/-- Without forwarding any producer ahead stalls (R133). -/
theorem hazard_stall_iff_producerDistance (hfwd : s.cfgFwdEn = false) :
    (hazard s).stall = true ↔ producerDistance s < 4 := by
  rw [hazard, hfwd, detect_stall_without_forwarding, producerDistance]
  split_ifs <;> simp [*]

/-- In a stall every producer moves one stage on, and the bubble behind it is none. -/
theorem producerDistance_stalled (h : producerDistance s < 4) : producerDistance s.stalled = producerDistance s + 1 := by
  unfold producerDistance at h ⊢
  simp only [stalled_ifid, stalled_idex, plain_latch, stalled_exmem, stalled_memwb, dependsOn_bubble]
  by_cases hex : dependsOn s.ifid s.idex.latch = true
  · simp [hex]
  · by_cases hmem : dependsOn s.ifid s.exmem = true
    · simp [hex, hmem]
    · have hwb : dependsOn s.ifid s.memwb = true := by
        by_contra hwb
        simp [hex, hmem, hwb] at h
      simp [hex, hmem, hwb]

/-- Without forwarding there are k more cycles for the instruction in ID to be held in, and nothing but a hazard stops it:
no countdown, no misprediction and no HALT ahead. -/
structure Waiting (k : Nat) (s : State) : Prop where
  executes : executes s = true
  room : 0 < k → roomFor k s = true
  noFlush : s.flush = 0
  noForwarding : s.cfgFwdEn = false
  noMispredict : mispredict Config.branchOracle s = none
  noHaltInEx : s.idex.latch.halts = false
  noHaltInMem : s.exmem.halts = false
  noHaltInWb : s.memwb.halts = false

theorem roomFor_of_le {j k : Nat} (hjk : j ≤ k) (h : roomFor k s = true) : roomFor j s = true := by
  simp only [roomFor, Bool.and_eq_true, decide_eq_true_eq] at h ⊢
  exact ⟨h.1, by omega⟩

variable {s} {k : Nat}

/-- The instruction goes on waiting after a stall. -/
theorem Waiting.stalled (h : Waiting (k + 1) s) : Waiting k s.stalled where
  executes := executes_drained h.executes h.noHaltInWb
  room hk := by
    obtain ⟨j, rfl⟩ := Nat.exists_eq_add_one_of_ne_zero hk.ne'
    exact roomFor_drained (h.room (by omega))
  noFlush := h.noFlush
  noForwarding := h.noForwarding
  noMispredict := mispredict_of_not_branch _ _ rfl
  noHaltInEx := rfl
  noHaltInMem := h.noHaltInEx
  noHaltInWb := h.noHaltInMem

theorem Waiting.step (h : Waiting (k + 1) s) (hd : producerDistance s < 4) : step s = .next s.stalled :=
  step_of_rawStall s h.executes (contract_of_roomFor (k + 1) s (h.room (by omega)))
    (arm_of_stall s h.noFlush ((hazard_stall_iff_producerDistance s h.noForwarding).2 hd)) h.noMispredict

theorem Waiting.arm_of_no_producer (h : Waiting k s) (hd : producerDistance s = 4) : arm s = .advance := by
  refine arm_of_no_stall s h.noFlush (Bool.eq_false_iff.2 fun hz => ?_)
  have := (hazard_stall_iff_producerDistance s h.noForwarding).1 hz
  omega

/-- Each of the k stalls moves the nearest producer one stage on, until it has left the pipe (R139). -/
theorem run_while_waiting (k : Nat) : ∀ s, Waiting k s → producerDistance s + k = 4 →
    ∃ u, Host.Core.run core k s = .next u ∧ u.ifid = s.ifid ∧ u.pc = s.pc ∧
      u.mRawStalls = s.mRawStalls + BitVec.ofNat 64 k ∧ arm u = .advance := by
  induction k with
  | zero => exact fun s h hd => ⟨s, run_zero s, rfl, rfl, by simp, h.arm_of_no_producer hd⟩
  | succ k ih =>
    intro s h hd
    have hlt : producerDistance s < 4 := by omega
    obtain ⟨u, hrun, hifid, hpc, hcount, ha⟩ := ih s.stalled h.stalled (by rw [producerDistance_stalled s hlt]; omega)
    refine ⟨u, (run_succ k s _ (h.step hlt)).trans hrun, hifid, hpc, ?_, ha⟩
    rw [hcount, stalled_mRawStalls, BitVec.add_assoc, Nat.add_comm k 1, BitVec.ofNat_add]
    rfl

theorem producerDistance_mem_Icc (s : State) : producerDistance s ∈ Set.Icc 1 4 := by
  unfold producerDistance
  split_ifs <;> simp

end Waiting

/-- Settles O13: the instruction waits for 4 - d cycles, by induction on their number. -/
theorem stallLengthWithoutForwarding : Obligations.StallLengthWithoutForwarding := by
  intro s he hroom hf hfwd hm hex hmem hwb
  obtain ⟨hone, hfour⟩ := producerDistance_mem_Icc s
  have hwait : Waiting (4 - producerDistance s) s :=
    ⟨he, fun _ => roomFor_of_le s (by omega) hroom, hf, hfwd, hm, hex, hmem, hwb⟩
  exact run_while_waiting (4 - producerDistance s) s hwait (by omega)

end Sys2Proof.Machine
end

section
/-! What predict and update of each strategy do to the tables, in numbers, and what they leave alone
(spec/42_branch_predictor.md R155 to R163, R167). -/

namespace Sys2Proof.Machine

section Counters
variable (c : Ctr2) (taken : Bool)

/-- A counter reads high exactly at 2 and 3 (R160, R162). -/
theorem ctrHigh_eq_decide : ctrHigh c = decide (2 ≤ c.toNat) := by
  revert c
  decide

theorem satUp_toNat : (satUp c).toNat = min 3 (c.toNat + 1) := by
  revert c
  decide

theorem satDown_toNat : (satDown c).toNat = c.toNat - 1 := by
  revert c
  decide

/-- Training moves a counter by one toward the outcome, saturating at 0 and 3 (R161, R167). -/
theorem trainCtr_toNat : (trainCtr taken c).toNat = if taken then min 3 (c.toNat + 1) else c.toNat - 1 := by
  cases taken
  · exact satDown_toNat c
  · exact satUp_toNat c

variable {c taken} {q1 q2 : Bool}

theorem nudgeChooser_of_agree (h : q1 = q2) : nudgeChooser q1 q2 taken c = c := if_pos h

/-- The 2-bit component was right and the 1-bit component wrong (R163). -/
theorem nudgeChooser_of_right2 (h : q1 ≠ q2) (h2 : q2 = taken) : nudgeChooser q1 q2 taken c = satUp c := by
  rw [nudgeChooser, if_neg h, if_pos h2]

/-- The 1-bit component was right and the 2-bit component wrong (R163). -/
theorem nudgeChooser_of_right1 (h : q1 ≠ q2) (h2 : q2 ≠ taken) : nudgeChooser q1 q2 taken c = satDown c := by
  rw [nudgeChooser, if_neg h, if_neg h2]

end Counters

/-- A write to a table is read at its own address and at no other. -/
theorem Table.get_set {α : Type} [DecidableEq α] (d : α) (t : Table α) (p q : Pos) (v : α)
    (ht : Table.wf d t = true) : Table.get d (Table.set d t p v) q = if q = p then v else Table.get d t q := by
  split
  · subst_vars
    exact Table.get_set_self d t _ v ht
  · exact Table.get_set_ne d t p q v ‹_›

/-- The canonical form of BPU, table by table. -/
theorem Bpu.wf_iff (b : Bpu) :
    b.wf = true ↔ Table.wf false b.ob = true ∧ Table.wf Config.twoBitInit b.tb = true ∧ Table.wf false b.tOb = true ∧
      Table.wf Config.twoBitInit b.tTb = true ∧ Table.wf Config.chooserInit b.tCh = true ∧
      Table.wf false b.tLp1 = true ∧ Table.wf false b.tLp2 = true := by
  simp [Bpu.wf, and_assoc]

section Predict
variable (k : BpKind) (b : Bpu) (p q : Pos)

/-- Only the tournament's predict writes a table or counts a component call (R162). -/
theorem predictState_of_ne_tournament (hk : k ≠ .tournament) :
    predictState k b p = { b with bpCalls := countCall .bpCalls p b.bpCalls, strategy := some k } := by
  rcases predictState_cases k b p with ⟨_, h⟩ | ⟨hk', _⟩
  · exact h
  · exact absurd hk' hk

@[simp] theorem tournament1_predictState : tournament1 (predictState k b p) q = tournament1 b q := by
  simp [tournament1]

@[simp] theorem tournament2_predictState : tournament2 (predictState k b p) q = tournament2 b q := by
  simp [tournament2]

/-- No prediction reads what a predict call writes (R155). -/
theorem predictTaken_predictState (k' : BpKind) :
    predictTaken k' (predictState k b p) q = predictTaken k' b q := by
  cases k' <;> simp [predictTaken]

/-- predict retains a component prediction for its own address only (R162). -/
theorem predictState_retained_ne (h : q ≠ p) :
    Table.get false (predictState k b p).tLp1 q = Table.get false b.tLp1 q ∧
      Table.get false (predictState k b p).tLp2 q = Table.get false b.tLp2 q := by
  by_cases hk : k = .tournament
  · subst hk
    exact ⟨Table.get_set_ne false _ p q _ h, Table.get_set_ne false _ p q _ h⟩
  · simp [predictState_of_ne_tournament k b p hk]

variable {b}

/-- The tournament's predict retains both component predictions (R162). -/
theorem predictState_tournament_retained (hb : b.wf = true) :
    Table.get false (predictState .tournament b p).tLp1 p = tournament1 b p ∧
      Table.get false (predictState .tournament b p).tLp2 p = tournament2 b p := by
  obtain ⟨_, _, _, _, _, hlp1, hlp2⟩ := b.wf_iff.1 hb
  exact ⟨Table.get_set_self false _ p _ hlp1, Table.get_set_self false _ p _ hlp2⟩

/-- A second predict at the same address retains what the first did (R155). -/
theorem predictState_twice_retained (hb : b.wf = true) :
    Table.get false (predictState k (predictState k b p) p).tLp1 q = Table.get false (predictState k b p).tLp1 q ∧
      Table.get false (predictState k (predictState k b p) p).tLp2 q =
        Table.get false (predictState k b p).tLp2 q := by
  by_cases hq : q = p
  · subst hq
    by_cases hk : k = .tournament
    · subst hk
      obtain ⟨h1, h2⟩ := predictState_tournament_retained q hb
      obtain ⟨h1', h2'⟩ := predictState_tournament_retained q (predictState_wf .tournament b q hb)
      exact ⟨by rw [h1', h1, tournament1_predictState], by rw [h2', h2, tournament2_predictState]⟩
    · simp only [predictState_of_ne_tournament k _ q hk, and_self]
  · exact predictState_retained_ne k (predictState k b p) p q hq

end Predict

/-- Settles O15: predict writes only the retained predictions of its own address, which no prediction reads, and the
counters. -/
theorem predictIsIdempotent : Obligations.PredictIsIdempotent := by
  intro k b p hb b1 b2
  refine ⟨fun q => predictTaken_predictState k b p q k, predictState_ob k b p, predictState_tb k b p,
    predictState_tOb k b p, predictState_tTb k b p, predictState_tCh k b p,
    fun q hq => predictState_retained_ne k b p q hq, fun q => predictState_twice_retained k p q hb, fun h => ?_, ?_, ?_,
    fun hk => ?_⟩
  · rw [predictState_bpCalls, countCall_of_ne p _ _ h]
  · rintro rfl h
    exact countCall_of_ne p _ _ h
  · rintro rfl h
    exact countCall_of_ne p _ _ h
  · simp only [b1, predictState_of_ne_tournament k b p hk, and_self]

/-- Settles O16: the table ob is read after its one write. -/
theorem oneBitPredictsTheLastOutcome : Obligations.OneBitPredictsTheLastOutcome := by
  refine ⟨fun p => Table.get_nil false p, fun b p => rfl, fun b p q t hb => ⟨?_, rfl⟩⟩
  obtain ⟨hob, _⟩ := b.wf_iff.1 hb
  exact Table.get_set false b.ob p q t hob

/-- Settles O17: the counter of the address is trained, and read in numbers. -/
theorem twoBitSaturates : Obligations.TwoBitSaturates := by
  refine ⟨fun p => Table.get_nil _ p, fun b p => ?_, fun b p t hb => ⟨?_, fun q hq => ?_, rfl⟩⟩
  · rw [predictTaken, ctrHigh_eq_decide, decide_eq_true_iff]
  · obtain ⟨_, htb, _⟩ := b.wf_iff.1 hb
    rw [← trainCtr_toNat]
    exact congrArg BitVec.toNat (Table.get_set_self _ b.tb p _ htb)
  · exact Table.get_set_ne _ b.tb p q _ hq

/-- Settles O18: both components are asked and retained, and the chooser's height selects the answer. -/
theorem tournamentPredict : Obligations.TournamentPredict := by
  intro b p hb b' p1 p2
  have hp2 : tournament2 b p = p2 := ctrHigh_eq_decide _
  obtain ⟨h1, h2⟩ := predictState_tournament_retained p hb
  refine ⟨?_, h1, h2.trans hp2, countCall_of_ne p _ _, countCall_of_ne p _ _, countCall_of_ne p _ _⟩
  simp only [predictTaken, ctrHigh_eq_decide, hp2, decide_eq_true_eq]
  rfl

section TournamentUpdate
variable {b : Bpu} (p : Pos) (t : Bool)

/-- The chooser of the address is nudged by the predictions retained for it (R163). -/
theorem updateState_tournament_tCh (hb : b.wf = true) :
    Table.get Config.chooserInit (updateState .tournament b p t).tCh p =
      nudgeChooser (Table.get false b.tLp1 p) (Table.get false b.tLp2 p) t (Table.get Config.chooserInit b.tCh p) := by
  obtain ⟨_, _, _, _, hch, _⟩ := b.wf_iff.1 hb
  exact Table.get_set_self _ b.tCh p _ hch

theorem updateState_tournament_tOb (hb : b.wf = true) :
    Table.get false (updateState .tournament b p t).tOb p = t := by
  obtain ⟨_, _, hob, _⟩ := b.wf_iff.1 hb
  exact Table.get_set_self _ b.tOb p _ hob

theorem updateState_tournament_tTb (hb : b.wf = true) :
    Table.get Config.twoBitInit (updateState .tournament b p t).tTb p =
      trainCtr t (Table.get Config.twoBitInit b.tTb p) := by
  obtain ⟨_, _, _, htb, _⟩ := b.wf_iff.1 hb
  exact Table.get_set_self _ b.tTb p _ htb

end TournamentUpdate

/-- Settles O19: each of the three tables is read after its one write, and the nudge is read in numbers. -/
theorem tournamentUpdate : Obligations.TournamentUpdate := by
  intro b p t hb b' q1 q2 ch c
  have hch := updateState_tournament_tCh p t hb
  refine ⟨fun h => ?_, fun h h2 => ?_, fun h h2 => ?_, updateState_tournament_tOb p t hb, ?_,
    fun q hq => ⟨Table.get_set_ne _ _ p q _ hq, Table.get_set_ne _ _ p q _ hq, Table.get_set_ne _ _ p q _ hq⟩, rfl⟩
  · rw [hch, nudgeChooser_of_agree h]
  · rw [hch, nudgeChooser_of_right2 h h2, satUp_toNat]
  · rw [hch, nudgeChooser_of_right1 h h2, satDown_toNat]
  · rw [updateState_tournament_tTb p t hb, trainCtr_toNat]

end Sys2Proof.Machine
end

section
/-! The calls of a cycle: the prediction that a branch takes along when it leaves ID and what the next cycle makes of it, BPU
under the two calls, and a core without a predictor (spec/42_branch_predictor.md R154, R164 to R168;
spec/43_pipeline_engine.md R198, R201). -/

namespace Sys2Proof.Machine

section Leaving
variable (o : Config.Oracle) (s : State) {i : Instr} {p : Pos}

/-- A branch in EX is mispredicted where its guess is not the outcome (R201, R203). -/
theorem mispredict_isSome_of_branch (hl : s.idex.latch = .instr i p) (hb : (roleOf i).branch = true) :
    (mispredict o s).isSome = ((s.idex.predV && s.idex.predT) != o i p) := by
  have hr := (resolve_eq_some o s.idex
    ⟨p, o i p, s.idex.predV && s.idex.predT, continueAt p i.fields.imm (o i p)⟩).2 ⟨i, hl, hb, rfl, rfl, rfl⟩
  simp only [mispredict, hr]
  split <;> simp [*]

/-- A branch that leaves ID takes its guess along, as a record if a predictor is attached (R198). -/
theorem nextIdex_of_branch (ha : arm s = .advance) (hi : s.ifid = .instr i p) (hb : (roleOf i).branch = true) :
    nextIdex s = { latch := .instr i p, predV := (attached s).isSome, predT := s.guessAt p } := by
  cases hk : attached s with
  | none =>
    rw [nextIdex_of_no_call s ha (predictCall_of_attached_none s hk), hi, State.guessAt, hk]
    rfl
  | some k =>
    simp only [nextIdex, ha, predicted, predictCall_of_branch s i p k ha hi hb hk, hi, State.guessAt, hk,
      Option.map_some, Option.isSome_some]

/-- A branch that leaves ID mispredicts in the next cycle exactly when its guess is not the outcome. -/
theorem mispredict_of_branch_leaving_id (f : Option Instr) (ha : arm s = .advance) (hi : s.ifid = .instr i p)
    (hb : (roleOf i).branch = true) : (mispredict o (cycle o f s)).isSome = (s.guessAt p != o i p) := by
  have hx : (cycle o f s).idex = _ := nextIdex_of_branch s ha hi hb
  rw [mispredict_isSome_of_branch o (cycle o f s) (congrArg IdEx.latch hx) hb, hx, attached_and_guessAt]

end Leaving

/-- Settles O21: the guess that the branch takes along is the fixed bias. -/
theorem staticStrategiesMispredict : Obligations.StaticStrategiesMispredict := by
  intro o g s i p ha hi hb
  rw [mispredict_of_branch_leaving_id o s g ha hi hb]
  refine ⟨fun hk => ?_, fun hk => ?_⟩
  · simp [State.guessAt, hk, predictTaken]
  · simp [State.guessAt, hk, predictTaken]

/-- Settles O20: the record is what predict answers at the start of the cycle; BPU goes through predict and then update, and
the tournament's update finds what predict retained. -/
theorem predictComesBeforeUpdate : Obligations.PredictComesBeforeUpdate := by
  intro i j s k p q hh hc ha hk hi hbj x hx hbx hwf
  have hidex := nextIdex_of_branch s ha hi hbj
  have hbpu : nextBpu Config.branchOracle s =
      updateState k (predictState k s.bpu p) q (Config.branchOracle x q) := by
    have hop : x.op = .beq ∨ x.op = .bne := (roleOf_branch x).1 hbx
    rw [nextBpu_eq_trained, bpuPredicted_of_call s _ (predictCall_of_branch s j p k ha hi hbj hk)]
    simp only [bpuTrained, hx, hk, hop, if_true]
  refine ⟨_, exec_next i s hh hc, ?_, ?_, hbpu, ?_⟩
  · simp [hidex, hk]
  · simp [hidex, State.guessAt, hk]
  · rintro rfl rfl
    obtain ⟨h1, h2⟩ := predictState_tournament_retained p hwf
    rw [cycle_bpu, hbpu, updateState_tournament_tCh p _ (predictState_wf .tournament s.bpu p hwf), h1, h2,
      predictState_tCh]

section Detached
variable (o : Config.Oracle) (f : Option Instr) {s : State} (h : s.cfgBpEn = false)
include h

theorem attached_of_disabled : attached s = none := by
  simp [attached, h]

theorem predictCall_of_disabled : predictCall s = none :=
  predictCall_of_attached_none s (attached_of_disabled h)

theorem updateCall_of_disabled : updateCall o s = none := by
  simp [updateCall, attached_of_disabled h]

theorem nextBpu_of_disabled : nextBpu o s = s.bpu := by
  simp [nextBpu, attached_of_disabled h]

end Detached

/-- The state with the strategy input at another code (R31). -/
def State.withKind (s : State) (c : BitVec 3) : State := { s with cfgBpKind := c }

section Kind
variable (o : Config.Oracle) (f : Option Instr) {s : State} (c : BitVec 3) (h : s.cfgBpEn = false)
include h

/-- Without a predictor the contract allows every kind (R164). -/
theorem withKind_contractBreach : contractBreach (s.withKind c) = contractBreach s := by
  simp [contractBreach, State.withKind, h]

theorem withKind_predictCall : predictCall (s.withKind c) = predictCall s := by
  have hc : (s.withKind c).cfgBpEn = false := h
  rw [predictCall_of_disabled h, predictCall_of_disabled hc]

theorem withKind_fetchAddr : fetchAddr (s.withKind c) = fetchAddr s := by
  simp only [fetchAddr, withKind_predictCall c h]
  rfl

theorem withKind_fetchSlot : fetchSlot (s.withKind c) = fetchSlot s := by
  simp only [fetchSlot, withKind_fetchAddr c h]
  rfl

theorem withKind_nextIfid : nextIfid o f (s.withKind c) = nextIfid o f s := by
  simp only [nextIfid, withKind_fetchSlot c h]
  rfl

theorem withKind_nextIdex : nextIdex (s.withKind c) = nextIdex s := by
  simp only [nextIdex, predicted, withKind_predictCall c h]
  rfl

theorem withKind_nextPc : nextPc o (s.withKind c) = nextPc o s := by
  simp only [nextPc, withKind_fetchSlot c h, withKind_fetchAddr c h]
  rfl

theorem withKind_nextBpu : nextBpu o (s.withKind c) = nextBpu o s := by
  have hc : (s.withKind c).cfgBpEn = false := h
  rw [nextBpu_of_disabled o h, nextBpu_of_disabled o hc]
  rfl

/-- Without a predictor a cycle only carries the kind through (R164). -/
theorem withKind_cycle : cycle o f (s.withKind c) = (cycle o f s).withKind c := by
  simp only [cycle, withKind_nextIfid o f c h, withKind_nextIdex c h, withKind_nextPc o c h, withKind_nextBpu o c h]
  rfl

theorem withKind_runCycle : runCycle f (s.withKind c) = mapNext (fun t => t.withKind c) (runCycle f s) := by
  simp only [runCycle, withKind_contractBreach c h, withKind_cycle _ f c h]
  cases hh : s.halted with
  | true => simp [State.withKind, hh, mapNext]
  | false => cases contractBreach s <;> simp [State.withKind, hh, mapNext]

end Kind

/-- Settles O22: without an attached predictor neither call is made, and the guess is not taken. -/
theorem noPredictorLeavesBpuAlone : Obligations.NoPredictorLeavesBpuAlone := by
  intro s t hen he hstep
  obtain ⟨_, f, rfl, _⟩ := step_of_executes s t he hstep
  refine ⟨nextBpu_of_disabled _ hen, ?_, ?_, fun i p ha hi hb => ?_⟩
  · rw [predReq_of_executes s he, predictCall_of_disabled hen]
    rfl
  · rw [updReq, if_pos he, updateCall_of_disabled _ hen]
  · rw [mispredict_of_branch_leaving_id _ s f ha hi hb]
    simp [State.guessAt, attached_of_disabled hen]

/-- An enabled predictor of a reserved kind is the first thing the contract refuses (R31, R164). -/
theorem contractBreach_of_reserved (s : State) (hen : s.cfgBpEn = true) (hk : 5 ≤ s.cfgBpKind.toNat) :
    contractBreach s = some .reservedPredictorKind := by
  have hnone : BpKind.ofCode s.cfgBpKind = none := by
    rw [← Option.not_isSome_iff_eq_none, ofCode_isSome_iff]
    omega
  simp [contractBreach, hen, hnone]

/-- Settles O23: a meaning is a cycle, which the contract refuses under a reserved kind and which reads no kind without a
predictor. -/
theorem reservedKindIsRefused : Obligations.ReservedKindIsRefused := by
  refine ⟨fun i s hen hk hh => ?_, fun i s c hen => ?_⟩
  · simp [exec_eq_runCycle, runCycle, hh, contractBreach_of_reserved s hen hk]
  · rw [exec_eq_runCycle, exec_eq_runCycle]
    exact withKind_runCycle (some i) c hen

section Pairs

theorem countIf_eq_add (e : Bool) (c : Count) : countIf e c = c + if e then 1 else 0 := by
  cases e
  · exact (BitVec.add_zero c).symm
  · rfl

variable (o : Config.Oracle) (s : State)

/-- A prediction is recorded in IDEX exactly when a predict call was made (R198). -/
theorem nextIdex_predV : (nextIdex s).predV = (predictCall s).isSome := by
  rcases nextIdex_cases s with ⟨ha, hx⟩ | ⟨ha, hx⟩ | ⟨_, ⟨hp, hx⟩ | ⟨c, hp, hx⟩⟩
  · simp [hx, predictCall, ha]
  · simp [hx, predictCall, ha]
  · simp [hx, hp]
  · simp [hx, hp]

/-- bp_calls counts the predict call of the cycle, and update counts none (R45). -/
theorem nextBpu_bpCalls (hne : s.bpu.bpCalls ≠ BitVec.allOnes 64) :
    (nextBpu o s).bpCalls = countIf (predictCall s).isSome s.bpu.bpCalls := by
  have hpred : (bpuPredicted s).bpCalls = countIf (predictCall s).isSome s.bpu.bpCalls := by
    cases hp : predictCall s with
    | none => rw [bpuPredicted_of_no_call s hp]; rfl
    | some c =>
      rw [bpuPredicted_of_call s c hp, predictState_bpCalls, countCall_of_ne _ _ _ hne]
      rfl
  rw [← hpred, nextBpu_eq]
  split
  · exact updateState_bpCalls ..
  · rfl

/-- With a predictor enabled the record is there exactly for a branch in IDEX (R225). -/
theorem predV_eq_isBranch (hr : recordConsistent s = true) (hen : s.cfgBpEn = true) :
    s.idex.predV = s.idex.latch.isBranch := by
  rw [Bool.eq_iff_iff]
  simp only [recordConsistent, hen, Bool.and_eq_true, Bool.or_eq_true, Bool.not_eq_true', Bool.and_true,
    Bool.true_and] at hr
  obtain ⟨⟨hrecord, hbranch⟩, _⟩ := hr
  exact ⟨fun h => hrecord.resolve_left (by simp [h]), fun h => hbranch.resolve_left (by simp [h])⟩

end Pairs

/-- Settles O24: the predict call of a cycle is the record it leaves in IDEX, and the record it finds there is the branch it
resolves. -/
theorem predictionsPairWithResolutions : Obligations.PredictionsPairWithResolutions := by
  intro s t hinv hen hne he hstep
  obtain ⟨_, f, rfl, _⟩ := step_of_executes s t he hstep
  obtain ⟨_, _, _, _, hrecord, _⟩ := (engineInv_iff s).1 hinv
  simp only [cycle_bpu, cycle_mBpPredictions, cycle_idex, nextBpu_bpCalls _ s hne, nextIdex_predV, resolve_isSome,
    predV_eq_isBranch s hrecord hen, countIf_eq_add]
  ring

end Sys2Proof.Machine
end

section
/-! What one clock edge runs, what the host sees of it, and what the slot in WB does (spec/43_pipeline_engine.md R190 to
R192, R199, R207 to R209). -/

namespace Sys2Proof.Machine

section Edge
variable (s : State)

theorem portCycle_of_word (a : Pos) (w : Word) (hs : fetchSlot s = some a) (hw : Memory.read s.rom a.toNat = some w) :
    portCycle s = runCycle (some (decode w)) s := by
  simp [portCycle, fetchOffer, hs, hw]

theorem portCycle_of_no_fetch (hs : fetchSlot s = none) : portCycle s = runCycle none s := by
  simp [portCycle, fetchOffer, hs]

/-- A clock edge that makes no fetch runs the same cycle whatever the ROM port delivers (R199, R200). -/
theorem runCycle_of_no_fetch (f : Option Instr) (hs : fetchSlot s = none) : runCycle f s = runCycle none s := by
  unfold runCycle
  rw [cycle_of_no_fetch Config.branchOracle f s hs]

theorem runCycle_of_halted (f : Option Instr) (hh : s.halted = true) : runCycle f s = .next s := if_pos hh

/-- No fetch is made once a HALT has retired (R199). -/
theorem fetchSlot_of_nextHalted (h : nextHalted s = true) : fetchSlot s = none := by
  rw [Option.eq_none_iff_forall_ne_some]
  intro a ha
  obtain ⟨_, _, hrunning, _⟩ := (fetchSlot_eq_some s a).1 ha
  simp [h] at hrunning

theorem isCycle_of_executes (he : executes s = true) : isCycle s = true := by
  obtain ⟨hr, hb, hh⟩ := (executes_iff s).1 he
  simp [isCycle, hr, hb, hh]

/-- The record of an executed cycle is that of the two states on its sides (R209). -/
theorem edgeRecord_of_executes (t : State) (he : executes s = true) (h : step s = .next t) :
    edgeRecord s = some (cycleRecord s t) := by
  simp [edgeRecord, isCycle_of_executes s he, h]

theorem edgeRecord_of_halted (hh : s.halted = true) : edgeRecord s = none := by
  simp [edgeRecord, isCycle, hh]

end Edge

/-- Settles O25: with both resets low a step is the cycle of what the ROM port delivers, and without a fetch that does not
matter. -/
theorem stepRunsTheDecodedWord : Obligations.StepRunsTheDecodedWord := by
  intro s hr hb
  refine ⟨fun a w hs hw => ?_, fun hs i => ?_⟩
  · rw [step_of_resets_low s hr hb, portCycle_of_word s a w hs hw, exec_eq_runCycle]
  · rw [step_of_resets_low s hr hb, portCycle_of_no_fetch s hs, exec_eq_runCycle, runCycle_of_no_fetch s (some i) hs]

/-- Settles O45: the halted state makes no fetch and runs no cycle. -/
theorem haltedStateIsFixed : Obligations.HaltedStateIsFixed := by
  intro s hh
  have hs : fetchSlot s = none := fetchSlot_of_nextHalted s (by simp [nextHalted, hh])
  refine ⟨fun hr hb => ?_, edgeRecord_of_halted s hh, fun i => ?_⟩
  · rw [step_of_resets_low s hr hb, portCycle_of_no_fetch s hs, runCycle_of_halted s none hh]
  · rw [exec_eq_runCycle, runCycle_of_halted s (some i) hh]

/-- Settles O50: the record is made of the slots on the two sides of the cycle. -/
theorem recordShowsTheSlots : Obligations.RecordShowsTheSlots :=
  ⟨edgeRecord_of_executes, fun _ _ => rfl, rfl, rfl, rfl⟩

/-- Settles O31: what is in WB alone decides halted and the retire count (R114, R192). -/
theorem writeBackRetiresOrHalts : Obligations.WriteBackRetiresOrHalts := by
  intro i s hh hc
  refine ⟨_, exec_next i s hh hc, rfl, fun j p hl => ?_, fun b hl => ?_⟩
  · simp only [cycle_halted, cycle_mRetired, nextHalted, nextRetired, hl, hh, halts_instr, retires_instr, roleOf_wb j]
    refine ⟨fun hop => ?_, fun hop => ?_, fun hhalt hnop => ?_⟩
    · simp [hop]
    · simp [hop]
    · simp [hhalt, hnop]
  · simp [nextHalted, nextRetired, hl, hh]

end Sys2Proof.Machine
end

section
/-! The arms of fetch arbitration and the fetch: what each arm leaves in IFID, IDEX, pc and the countdown when no misprediction
overrides it (spec/43_pipeline_engine.md R195 to R200, R205). -/

namespace Sys2Proof.Machine

section Arms
variable (o : Config.Oracle) (f : Option Instr) (s : State)

theorem nextIdex_of_flush (ha : arm s = .flush) : nextIdex s = IdEx.plain (.bubble .flush) := by
  simp [nextIdex, ha]

theorem nextIdex_of_rawStall (ha : arm s = .rawStall) : nextIdex s = IdEx.plain (.bubble .stall) := by
  simp [nextIdex, ha]

/-- A cycle that does not advance holds ID (R195, R196). -/
theorem nextIfid_of_held (hm : mispredict o s = none) (ha : arm s ≠ .advance) : nextIfid o f s = s.ifid := by
  unfold nextIfid
  cases harm : arm s with
  | flush => simp [hm]
  | rawStall => simp [hm]
  | advance => exact absurd harm ha

/-- A failed fetch leaves an EMPTY bubble in IFID (R200). -/
theorem nextIfid_of_failed_fetch (hm : mispredict o s = none) (ha : arm s = .advance) (hs : fetchSlot s = none) :
    nextIfid o f s = .bubble .empty := by
  simp [nextIfid, hm, ha, hs]

theorem nextIfid_of_fetch (i : Instr) (a : Pos) (hm : mispredict o s = none) (hs : fetchSlot s = some a) :
    nextIfid o (some i) s = .instr i a := by
  obtain ⟨ha, _⟩ := (fetchSlot_eq_some s a).1 hs
  simp [nextIfid, hm, ha, hs]

theorem nextPc_of_no_fetch (hm : mispredict o s = none) (hs : fetchSlot s = none) : nextPc o s = s.pc := by
  simp [nextPc, hm, hs]

theorem nextPc_of_fetch (a : Pos) (hm : mispredict o s = none) (hs : fetchSlot s = some a) :
    nextPc o s = fetchAddr s + 1 := by
  simp [nextPc, hm, hs]

theorem nextFlush_of_no_mispredict (hm : mispredict o s = none) : nextFlush o s = countedFlush s := by
  simp [nextFlush, hm]

theorem countedFlush_of_ne_zero (hf : s.flush ≠ 0) : countedFlush s = s.flush - 1 :=
  if_pos (bne_iff_ne.2 hf)

theorem countedFlush_of_zero (hf : s.flush = 0) : countedFlush s = 0 := by
  simp [countedFlush, flushing, hf]

/-- A fetch address outside the program fails the fetch at either end (R200, R64, R65). -/
theorem inProgram_eq_false_iff (a : Addr) (n : BitVec 17) :
    inProgram a n = false ↔ a.toInt < 0 ∨ (n.toNat : Int) ≤ a.toInt := by
  rw [Bool.eq_false_iff, ne_eq, inProgram_iff]
  omega

/-- A branch that leaves ID under a predictor sends the fetch where its prediction says (R198). -/
theorem fetchAddr_of_branch (j : Instr) (p : Pos) (k : BpKind) (ha : arm s = .advance) (hi : s.ifid = .instr j p)
    (hb : (roleOf j).branch = true) (hk : attached s = some k) :
    fetchAddr s = continueAt p j.fields.imm (predictTaken k s.bpu p) := by
  simp [fetchAddr, predictCall_of_branch s j p k ha hi hb hk]

end Arms

/-- Settles O32: the arm puts its bubble in IDEX and fetches nothing, so without a misprediction ID and pc are held. -/
theorem flushArm : Obligations.FlushArm := by
  intro i s hh hc hf
  have ha : arm s = .flush := arm_of_flush_ne_zero s hf
  have hs : fetchSlot s = none := fetchSlot_of_arm s (by simp [ha])
  refine ⟨_, exec_next i s hh hc, nextIdex_of_flush s ha, by simp [ha], by simp [ha], hs, fun hm =>
    ⟨nextIfid_of_held _ _ s hm (by simp [ha]), nextPc_of_no_fetch _ s hm hs, ?_⟩⟩
  rw [cycle_flush, nextFlush_of_no_mispredict _ s hm, countedFlush_of_ne_zero s hf]
  bv_omega

/-- Settles O33: the stall puts its bubble in IDEX and fetches nothing, so without a misprediction the consumer stays in ID. -/
theorem rawStallArm : Obligations.RawStallArm := by
  intro i s hh hc hf hz
  have ha : arm s = .rawStall := arm_of_stall s hf hz
  have hs : fetchSlot s = none := fetchSlot_of_arm s (by simp [ha])
  refine ⟨_, exec_next i s hh hc, nextIdex_of_rawStall s ha, by simp [ha], by simp [ha], hs, fun hm =>
    ⟨nextIfid_of_held _ _ s hm (by simp [ha]), nextPc_of_no_fetch _ s hm hs, ?_⟩⟩
  rw [cycle_flush, nextFlush_of_no_mispredict _ s hm, countedFlush_of_zero s hf]

/-- Settles O34: each of the three causes leaves the cycle without a fetch. -/
theorem failedFetch : Obligations.FailedFetch := by
  intro i s hh hc ha hm hfail
  have hs : fetchSlot s = none := by
    rw [← or_assoc, ← inProgram_eq_false_iff] at hfail
    rcases hfail with hout | hhalt
    · exact fetchSlot_of_out_of_program s hout
    · exact fetchSlot_of_nextHalted s (by simp [nextHalted, hhalt])
  exact ⟨_, exec_next i s hh hc, nextIfid_of_failed_fetch _ _ s hm ha hs, nextPc_of_no_fetch _ s hm hs⟩

/-- Settles O35: the record and the fetch address are those of the one predict call. -/
theorem predictedFetch : Obligations.PredictedFetch := by
  intro i j s k p hh hc ha hk hi hop taken a
  have hb : (roleOf j).branch = true := (roleOf_branch j).2 hop
  have haddr : fetchAddr s = a := fetchAddr_of_branch s j p k ha hi hb hk
  have hidex : nextIdex s = { latch := s.ifid, predV := true, predT := taken } := by
    simp [nextIdex_of_branch s ha hi hb, hi, hk, State.guessAt, taken]
  refine ⟨_, exec_next i s hh hc, hidex, haddr, fun hm hw hin => ?_⟩
  have hs : fetchSlot s = some (a.setWidth 16) :=
    (fetchSlot_eq_some s _).2 ⟨ha, by rwa [haddr], by simp [nextHalted, hh, hw], by rw [haddr]⟩
  exact ⟨nextIfid_of_fetch _ s i _ hm hs, by rw [cycle_pc, nextPc_of_fetch _ s _ hm hs, haddr]⟩

end Sys2Proof.Machine
end

section
/-! The branch in EX (spec/43_pipeline_engine.md R201 to R204) and what a wrong guess costs: the cycle that finds it, and the
countdown behind it (R227, R228). -/

namespace Sys2Proof.Machine

section Resolution
variable (o : Config.Oracle) (s : State) {j : Instr} {p : Pos}

/-- What a branch in EX resolves to (R201). -/
theorem resolve_of_branch (x : IdEx) (hl : x.latch = .instr j p) (hb : (roleOf j).branch = true) :
    resolve o x =
      some
        { pos := p, actual := o j p, guess := x.predV && x.predT
          correct := continueAt p j.fields.imm (o j p) } :=
  (resolve_eq_some o x _).2 ⟨j, hl, hb, rfl, rfl, rfl⟩

theorem mispredict_of_right_guess {r : Resolution} (hr : resolve o s.idex = some r) (hg : r.guess = r.actual) :
    mispredict o s = none := by
  simp [mispredict, hr, hg]

/-- What a cycle leaves that finds a wrong guess, in whichever arm (R203, R204). -/
theorem cycle_of_mispredict (f : Option Instr) (r : Resolution) (hm : mispredict o s = some r) :
    (cycle o f s).mBpMispredictions = s.mBpMispredictions + 1 ∧ (cycle o f s).flush = 2 ∧
      (cycle o f s).ifid = .bubble .flush ∧ (cycle o f s).pc = r.correct := by
  simp [nextFlush, Config.flushLen, nextIfid, nextPc, hm]

/-- What mispredicts in EX is a branch and so no HALT (R114). -/
theorem idex_halts_of_mispredict (r : Resolution) (hm : mispredict o s = some r) : s.idex.latch.halts = false := by
  obtain ⟨hr, _⟩ := (mispredict_eq_some o s r).1 hm
  obtain ⟨i, hl, hb, _⟩ := (resolve_eq_some o s.idex r).1 hr
  simp [hl, wb_of_branch hb]

/-- What a cycle puts in IDEX was in ID or is a bubble (R194 to R197). -/
theorem nextIdex_latch_cases : (nextIdex s).latch = s.ifid ∨ ∃ b, (nextIdex s).latch = .bubble b := by
  rcases nextIdex_cases s with ⟨_, hx⟩ | ⟨_, hx⟩ | ⟨_, ⟨_, hx⟩ | ⟨c, _, hx⟩⟩ <;> rw [hx]
  · exact .inr ⟨.flush, rfl⟩
  · exact .inr ⟨.stall, rfl⟩
  · exact .inl rfl
  · exact .inl rfl

theorem nextIdex_halts (h : s.ifid.halts = false) : (nextIdex s).latch.halts = false := by
  rcases nextIdex_latch_cases s with hx | ⟨b, hx⟩
  · rw [hx, h]
  · rw [hx, halts_bubble]

end Resolution

/-- Settles O36: the branch in EX resolves to its outcome and its guess, and these two decide everything else. -/
theorem branchResolution : Obligations.BranchResolution := by
  refine ⟨fun i j s p hh hc hl hop => ?_, fun i s hh hc hbr => ?_⟩
  · intro actual guess
    have hr := resolve_of_branch Config.branchOracle s.idex hl ((roleOf_branch j).2 hop)
    have hguess : (s.idex.predV && s.idex.predT) = guess := by cases hv : s.idex.predV <;> simp [guess, hv]
    rw [hguess] at hr
    refine ⟨_, exec_next i s hh hc, by simp [hr], fun hg => ?_, fun hg => ?_, fun k hk => ?_, fun hk => ?_⟩
    · have hm := mispredict_of_right_guess Config.branchOracle s hr hg
      exact ⟨by simp [hm], fetchUndisturbed_cycle _ i s hm⟩
    · exact cycle_of_mispredict _ s (some i) _ ((mispredict_eq_some _ s _).2 ⟨hr, hg⟩)
    · rw [cycle_bpu, nextBpu_eq, hk, hr]
    · rw [cycle_bpu, nextBpu_eq, hk, bpuPredicted_of_no_call s (predictCall_of_attached_none s hk)]
  · have hr : resolve Config.branchOracle s.idex = none := resolve_of_not_branch _ s.idex hbr
    have hm : mispredict Config.branchOracle s = none := mispredict_of_not_branch _ s hbr
    refine ⟨_, exec_next i s hh hc, by simp [hr], by simp [hm], fetchUndisturbed_cycle _ i s hm, ?_⟩
    rw [cycle_bpu, nextBpu_eq_trained, bpuTrained_of_not_branch s _ hbr]

section Countdown
variable (s : State)

theorem cycle_mControlStalls_of_no_countdown {o : Config.Oracle} {f : Option Instr} (hf : s.flush = 0) :
    (cycle o f s).mControlStalls = s.mControlStalls := by
  rcases arm_cases s with ⟨_, hne⟩ | ⟨ha, _⟩ | ⟨ha, _⟩
  · exact absurd hf hne
  · simp [ha]
  · simp [ha]

/-- The state after a cycle of a countdown: nothing is fetched (R195). -/
def State.countedDown (s : State) : State := cycle Config.branchOracle none s

variable {s}

theorem step_of_countdown (he : executes s = true) (hc : contractBreach s = none) (hf : s.flush ≠ 0) :
    step s = .next s.countedDown :=
  step_of_no_fetch s he hc (fetchSlot_of_arm s (by simp [arm_of_flush_ne_zero s hf]))

/-- Whether the branch in EX was guessed right or not, a cycle of a countdown is one control stall and leaves a FLUSH bubble in
IDEX (R195). -/
theorem countedDown_stall (hf : s.flush ≠ 0) :
    s.countedDown.mControlStalls = s.mControlStalls + 1 ∧ s.countedDown.idex = IdEx.plain (.bubble .flush) := by
  have ha : arm s = .flush := arm_of_flush_ne_zero s hf
  exact ⟨by simp [State.countedDown, ha], nextIdex_of_flush s ha⟩

/-- Without a misprediction the countdown goes on, and ID and pc are held (R195, R205). -/
theorem countedDown_held (hf : s.flush ≠ 0) (hm : mispredict Config.branchOracle s = none) :
    s.countedDown.flush = s.flush - 1 ∧ s.countedDown.ifid = s.ifid ∧ s.countedDown.pc = s.pc ∧
      s.countedDown.mBpMispredictions = s.mBpMispredictions := by
  have ha : arm s = .flush := arm_of_flush_ne_zero s hf
  have hs : fetchSlot s = none := fetchSlot_of_arm s (by simp [ha])
  refine ⟨?_, nextIfid_of_held _ _ s hm (by simp [ha]), nextPc_of_no_fetch _ s hm hs, by simp [State.countedDown, hm]⟩
  exact (nextFlush_of_no_mispredict _ s hm).trans (countedFlush_of_ne_zero s hf)

/-- What a countdown of two cycles from s leaves in u: it costs two control stalls, holds ID and pc, and finds no misprediction
(R227). -/
structure CountdownOver (s u : State) : Prop where
  stalls : u.mControlStalls = s.mControlStalls + 2
  flush : u.flush = 0
  ifid : u.ifid = s.ifid
  idex : u.idex = IdEx.plain (.bubble .flush)
  pc : u.pc = s.pc
  misses : u.mBpMispredictions = s.mBpMispredictions

/-- A whole countdown: what is in EX at its start may be a branch that was guessed right, and behind it is a bubble (R195). -/
theorem run_countdown (he : executes s = true) (hroom : roomFor 2 s = true) (hf : s.flush = 2)
    (hm : mispredict Config.branchOracle s = none) (hw : s.memwb.halts = false) :
    Host.Core.run core 2 s = .next s.countedDown.countedDown ∧ CountdownOver s s.countedDown.countedDown := by
  have hf0 : s.flush ≠ 0 := by simp [hf]
  obtain ⟨hstall1, hidex1⟩ := countedDown_stall hf0
  obtain ⟨hflush1, hifid1, hpc1, hmis1⟩ := countedDown_held hf0 hm
  have he1 : executes s.countedDown = true := executes_cycle _ _ s he hw
  have hc1 : contractBreach s.countedDown = none := contract_of_roomFor 1 _ (roomFor_cycle _ _ 2 s le_rfl hroom)
  have hf1 : s.countedDown.flush ≠ 0 := by simp [hflush1, hf]
  have hm1 : mispredict Config.branchOracle s.countedDown = none := mispredict_of_not_branch _ _ (by rw [hidex1]; rfl)
  obtain ⟨hstall2, hidex2⟩ := countedDown_stall hf1
  obtain ⟨hflush2, hifid2, hpc2, hmis2⟩ := countedDown_held hf1 hm1
  constructor
  · rw [run_succ 1 _ _ (step_of_countdown he (contract_of_roomFor 2 s hroom) hf0),
      run_succ 0 _ _ (step_of_countdown he1 hc1 hf1), run_zero]
  · exact {
      stalls := by rw [hstall2, hstall1, BitVec.add_assoc]; rfl
      flush := by rw [hflush2, hflush1, hf]; rfl
      ifid := hifid2.trans hifid1
      idex := hidex2
      pc := hpc2.trans hpc1
      misses := hmis2.trans hmis1 }

/-- The core runs on after the countdown unless a HALT that was in WB or MEM at its start has retired by then. -/
theorem executes_after_countdown (he : executes s = true) (hroom : roomFor 3 s = true) (hmem : s.exmem.halts = false)
    (hw : s.memwb.halts = false) :
    executes s.countedDown.countedDown = true ∧ contractBreach s.countedDown.countedDown = none :=
  ⟨executes_cycle _ _ _ (executes_cycle _ _ s he hw) hmem,
    contract_of_roomFor 1 _ (roomFor_cycle _ _ 2 _ le_rfl (roomFor_cycle _ _ 3 s (by omega) hroom))⟩

end Countdown

/-- An executed step is one cycle, whatever the ROM port delivers in it (R190, R208). -/
theorem step_eq_cycle (s t : State) (he : executes s = true) (h : step s = .next t) :
    ∃ f, t = cycle Config.branchOracle f s := by
  obtain ⟨_, f, rfl, _⟩ := step_of_executes s t he h
  exact ⟨f, rfl⟩

/-- From a FLUSH bubble in ID with no countdown on, the address in pc is fetched if it is in the program (R199). -/
theorem fetch_after_countdown (s : State) (he : executes s = true) (hc : contractBreach s = none) (hrom : romLoaded s)
    (hf : s.flush = 0) (hid : s.ifid = .bubble .flush) (hex : s.idex.latch.isBranch = false) (hw : s.memwb.halts = false) :
    ∃ t, step s = .next t ∧ (inProgram s.pc s.cfgProgLen = true →
      ∃ w, Memory.read s.rom (s.pc.setWidth 16 : Pos).toNat = some w ∧ t.ifid = .instr (decode w) (s.pc.setWidth 16) ∧
        t.pc = s.pc + 1) := by
  obtain ⟨_, _, hh⟩ := (executes_iff s).1 he
  have ha : arm s = .advance := arm_of_no_stall s hf (hazard_bubble s .flush hid)
  have haddr : fetchAddr s = s.pc := fetchAddr_of_no_call s (predictCall_of_bubble s .flush hid)
  have hm : mispredict Config.branchOracle s = none := mispredict_of_not_branch _ s hex
  obtain ⟨f, hstep, hfetch⟩ := step_of_romLoaded s hrom he hc
  refine ⟨_, hstep, fun hin => ?_⟩
  have hs : fetchSlot s = some (s.pc.setWidth 16) :=
    (fetchSlot_eq_some s _).2 ⟨ha, by rwa [haddr], by simp [nextHalted, hh, hw], by rw [haddr]⟩
  obtain ⟨w, hread, rfl⟩ := hfetch _ hs
  exact ⟨w, hread, nextIfid_of_fetch _ s _ _ hm hs, by rw [cycle_pc, nextPc_of_fetch _ s _ hm hs, haddr]⟩

/-- Settles O39: the misprediction arms a whole countdown, and after it the pipe advances from the redirected pc. -/
theorem singleMispredictionCostsTwo : Obligations.SingleMispredictionCostsTwo := by
  intro s t1 r he hroom hrom hid hmem hwb hm hstep hm1
  obtain ⟨f, rfl⟩ := step_eq_cycle s t1 he hstep
  obtain ⟨_, hflush, hifid, hpc⟩ := cycle_of_mispredict _ s f r hm
  have he1 : executes (cycle Config.branchOracle f s) = true := executes_cycle _ f s he hwb
  have hroom1 : roomFor 3 (cycle Config.branchOracle f s) = true := roomFor_cycle _ f 4 s (by omega) hroom
  obtain ⟨hrun, hover⟩ := run_countdown he1 (roomFor_of_le _ (by omega) hroom1) hflush hm1 hmem
  obtain ⟨he3, hc3⟩ := executes_after_countdown he1 hroom1 (idex_halts_of_mispredict _ s r hm) hmem
  obtain ⟨t4, hstep4, hfetch⟩ := fetch_after_countdown _ he3 hc3 hrom hover.flush (hover.ifid.trans hifid)
    (by rw [hover.idex]; rfl) (nextIdex_halts s hid)
  rw [hover.pc, hpc] at hfetch
  exact ⟨_, t4, hrun, hover.stalls, hover.flush, hover.pc.trans hpc, hstep4, hfetch⟩

/-- Settles O40: the second misprediction falls in the first cycle of the first countdown, and a whole countdown follows it. -/
theorem backToBackMispredictionsOverlap : Obligations.BackToBackMispredictionsOverlap := by
  intro s t1 r1 r2 he hroom hmem hwb hf hm1 hstep hm2
  obtain ⟨f, rfl⟩ := step_eq_cycle s t1 he hstep
  set t1 := cycle Config.branchOracle f s
  obtain ⟨hmis1, hflush1, _, hpc1⟩ := cycle_of_mispredict _ s f r1 hm1
  obtain ⟨hmis2, hflush2, _, hpc2⟩ := cycle_of_mispredict _ t1 none r2 hm2
  have hf1 : t1.flush ≠ 0 := by simp [show t1.flush = 2 from hflush1]
  have he1 : executes t1 = true := executes_cycle _ f s he hwb
  have hroom1 : roomFor 3 t1 = true := roomFor_cycle _ f 4 s (by omega) hroom
  obtain ⟨hstall2, hidex2⟩ := countedDown_stall hf1
  have he2 : executes t1.countedDown = true := executes_cycle _ _ t1 he1 hmem
  have hroom2 : roomFor 2 t1.countedDown = true := roomFor_cycle _ _ 3 t1 (by omega) hroom1
  have hm3 : mispredict Config.branchOracle t1.countedDown = none := mispredict_of_not_branch _ _ (by rw [hidex2]; rfl)
  obtain ⟨hrun, hover⟩ := run_countdown he2 hroom2 hflush2 hm3 (idex_halts_of_mispredict _ s r1 hm1)
  refine ⟨hflush1, hpc1, _, _, step_of_countdown he1 (contract_of_roomFor 3 t1 hroom1) hf1, hflush2, hpc2, hrun,
    hover.flush, hover.pc.trans hpc2, ?_, ?_⟩
  · rw [hover.stalls, hstall2, cycle_mControlStalls_of_no_countdown s hf, BitVec.add_assoc]
    rfl
  · rw [hover.misses, State.countedDown, hmis2, hmis1, BitVec.add_assoc]
    rfl

end Sys2Proof.Machine
end

section
/-! Every step keeps the whole invariant (spec/43_pipeline_engine.md R220 to R226): the engine's part over one cycle is known
under any oracle, and what is added here is the origin of the instructions in the pipe and the three kinds of edge. -/

namespace Sys2Proof.Machine

section Origin

/-- Where an instruction comes from depends on the ROM and the program length alone, which no edge writes. -/
theorem fromRom_congr {s t : State} (h : t.inputs = s.inputs) (l : Latch) : l.fromRom t = l.fromRom s := by
  obtain ⟨_, _, _, _, _, hlen, hrom⟩ := (inputs_eq_iff s t).1 h
  unfold Latch.fromRom
  rw [hlen, hrom]

theorem latchesFromRom_iff (s : State) :
    latchesFromRom s = true ↔ s.ifid.fromRom s = true ∧ s.idex.latch.fromRom s = true ∧ s.exmem.fromRom s = true ∧
      s.memwb.fromRom s = true := by
  simp [latchesFromRom, and_assoc]

variable (s : State)

/-- What the ROM port delivers is the decoding of the word at the position it gets (R60, R199). -/
theorem fromRom_of_fetch (a : Pos) (w : Word) (hc : contractBreach s = none) (hs : fetchSlot s = some a)
    (hw : Memory.read s.rom a.toNat = some w) : (Latch.instr (decode w) a).fromRom s = true := by
  obtain ⟨_, hin, _, rfl⟩ := (fetchSlot_eq_some s a).1 hs
  obtain ⟨_, hlen, _⟩ := (contractBreach_eq_none s).1 hc
  obtain ⟨hpos, hlt, _⟩ := inProgram_pos _ _ hin hlen
  rw [← hpos] at hlt
  simp only [Latch.fromRom, hw, beq_self_eq_true, Bool.and_true, decide_eq_true hlt]

/-- The latches after a cycle hold what was in the latch before them, a bubble, or what was fetched. -/
theorem cycle_latchesFromRom (o : Config.Oracle) (f : Option Instr) (h : latchesFromRom s = true)
    (hfetch : ∀ a i, fetchSlot s = some a → f = some i → (Latch.instr i a).fromRom s = true) :
    latchesFromRom (cycle o f s) = true := by
  obtain ⟨hifid, hidex, hexmem, _⟩ := (latchesFromRom_iff s).1 h
  rw [latchesFromRom_iff]
  simp only [fromRom_congr (cycle_inputs s o f), cycle_ifid, cycle_idex, cycle_exmem, cycle_memwb]
  refine ⟨?_, ?_, hidex, hexmem⟩
  · rcases nextIfid_cases o f s with ⟨_, hl⟩ | ⟨_, _, hl⟩ | ⟨_, _, ⟨a, i, hs, hf, hl⟩ | ⟨_, hl⟩⟩ <;> rw [hl]
    · rfl
    · exact hifid
    · exact hfetch a i hs hf
    · rfl
  · rcases nextIdex_latch_cases s with hl | ⟨b, hl⟩ <;> rw [hl]
    · exact hifid
    · rfl

end Origin

section Invariant
variable (s : State)

/-- No part of the invariant reads the strategy's code, inRun or, but for its canonical form, BPU. -/
theorem machineInv_of_bpu (k : BitVec 3) (b : Bpu) (r : Bool) (hb : b.wf = true) (h : machineInv s = true) :
    machineInv { s with cfgBpKind := k, bpu := b, inRun := r } = true := by
  obtain ⟨hengine, hrom, _, hlatches⟩ := (machineInv_iff s).1 h
  exact (machineInv_iff _).2 ⟨hengine, hrom, hb, hlatches⟩

/-- A rst edge empties the pipe and leaves the ROM as it is (R260, R263). -/
theorem resetEdge_machineInv (h : machineInv s = true) : machineInv (resetEdge s) = true := by
  obtain ⟨_, hrom, hbpu, _⟩ := (machineInv_iff s).1 h
  have hengine := resetEdge_engineInv s
  rw [resetEdge_eq] at hengine ⊢
  refine (machineInv_iff _).2 ⟨hengine, hrom, ?_, rfl⟩
  cases hb : s.bpRst
  · exact hbpu
  · exact Bpu.reset_wf

/-- A cycle keeps the invariant with whatever word the ROM port delivers. -/
theorem portCycle_machineInv (u : State) (hh : s.halted = false) (h : machineInv s = true) (hstep : portCycle s = .next u) :
    machineInv u = true := by
  obtain ⟨hengine, hrom, hbpu, hlatches⟩ := (machineInv_iff s).1 h
  obtain ⟨hc, hfetch⟩ := portCycle_next_cases s u hh hstep
  rcases hfetch with ⟨hs, rfl⟩ | ⟨a, w, hs, hw, rfl⟩
  · exact (machineInv_iff _).2 ⟨engineInvHoldsUnderEveryOracle _ _ s hengine hc, hrom, nextBpu_wf _ s hbpu,
      cycle_latchesFromRom s _ _ hlatches (by simp)⟩
  · refine (machineInv_iff _).2 ⟨engineInvHoldsUnderEveryOracle _ _ s hengine hc, hrom, nextBpu_wf _ s hbpu,
      cycle_latchesFromRom s _ _ hlatches fun b i hb hi => ?_⟩
    rw [hs] at hb
    cases hb
    cases hi
    exact fromRom_of_fetch s a w hc hs hw

end Invariant

/-- Settles O51: a rst edge sets the invariant up, a cycle keeps it, and a bp_rst edge changes nothing else that the invariant
reads but BPU. -/
theorem stepKeepsMachineInv : Obligations.StepKeepsMachineInv := by
  intro s t hinv hstep
  rcases step_next_cases s t hstep with ⟨_, rfl⟩ | ⟨_, _, _, hedge⟩ | ⟨_, _, _, rfl⟩ | ⟨hr, hb, hh, _⟩
  · exact resetEdge_machineInv s hinv
  · rcases hedge with ⟨_, rfl⟩ | ⟨hh, _, u, hu, rfl⟩
    · exact machineInv_of_bpu s _ _ _ Bpu.reset_wf hinv
    · obtain ⟨_, _, hbpu, _⟩ := (machineInv_iff s).1 hinv
      have hdirected : machineInv s.directed = true := machineInv_of_bpu s _ _ s.inRun hbpu hinv
      exact machineInv_of_bpu u _ _ _ Bpu.reset_wf (portCycle_machineInv s.directed u hh hdirected hu)
  · exact hinv
  · exact portCycle_machineInv s t hh hinv (by rw [← step_of_resets_low s hr hb, hstep])

end Sys2Proof.Machine
end

section
/-! Several cycles: the way of a latch value from EX to WB, the growth of the counters, and the driving loop
(spec/43_pipeline_engine.md R207, R209, R211, R212, R223, R224). -/

namespace Sys2Proof.Machine

/-- A step of a core that does not halt is followed by another cycle. -/
theorem executes_of_step (s t : State) (he : executes s = true) (h : step s = .next t) (hh : t.halted = false) :
    executes t = true := by
  obtain ⟨f, rfl⟩ := step_eq_cycle s t he h
  obtain ⟨hr, hb, _⟩ := (executes_iff s).1 he
  exact (executes_iff _).2 ⟨hr, hb, hh⟩

/-- Settles O42: each cycle moves EX to MEM and MEM to WB, and what is in WB decides halted and the retire count. -/
theorem nothingStopsTheWayToWriteBack : Obligations.NothingStopsTheWayToWriteBack := by
  intro s t u v hes hst hht htu hhu huv
  have het : executes t = true := executes_of_step s t hes hst hht
  have heu : executes u = true := executes_of_step t u het htu hhu
  obtain ⟨f, rfl⟩ := step_eq_cycle s t hes hst
  obtain ⟨g, rfl⟩ := step_eq_cycle _ u het htu
  obtain ⟨h, rfl⟩ := step_eq_cycle _ v heu huv
  refine ⟨rfl, rfl, ?_, rfl⟩
  rw [cycle_halted, nextHalted, hhu, Bool.false_or]
  rfl

/-- Below its maximum a counter grows by 0 or 1 in numbers. -/
theorem countIf_grows (e : Bool) (c : Count) (h : c.toNat + 1 < 2 ^ 64) :
    (countIf e c).toNat = c.toNat ∨ (countIf e c).toNat = c.toNat + 1 := by
  rw [countIf_toNat e c h]
  have := Bool.toNat_le e
  omega

/-- The arm of a cycle is at most one of the two stalls (R195, R196). -/
theorem stall_counters_grow (s : State) (raw control : Count) (hraw : raw.toNat + 1 < 2 ^ 64)
    (hcontrol : control.toNat + 1 < 2 ^ 64) :
    ((countIf (arm s == .rawStall) raw).toNat = raw.toNat ∧
        ((countIf (arm s == .flush) control).toNat = control.toNat ∨
          (countIf (arm s == .flush) control).toNat = control.toNat + 1)) ∨
      ((countIf (arm s == .rawStall) raw).toNat = raw.toNat + 1 ∧
        (countIf (arm s == .flush) control).toNat = control.toNat) := by
  rw [countIf_toNat _ raw hraw, countIf_toNat _ control hcontrol]
  have := stall_counts_exclude s
  omega

/-- Settles O49: under the invariant no counter is above m_cycles, which the contract keeps below its maximum, so none wraps. -/
theorem countersGrowByAtMostOne : Obligations.CountersGrowByAtMostOne := by
  intro s t hinv he hstep
  obtain ⟨hc, f, rfl, _⟩ := step_of_executes s t he hstep
  obtain ⟨_, _, _, hmetrics, _, _⟩ := (engineInv_iff s).1 hinv
  obtain ⟨hret, hstall, hpred, hmis⟩ := (metricsBounded_iff s).1 hmetrics
  have hroom := mCycles_room_of_contract s hc
  exact ⟨countIf_toNat true s.mCycles hroom, countIf_grows _ _ (by omega), countIf_grows _ _ (by omega),
    countIf_grows _ _ (by omega), stall_counters_grow s _ _ (by omega) (by omega)⟩

section Loop
variable (k : Nat) (s : State) (r : RunResult)

theorem runTo_of_halted (hh : s.halted = true) : runTo (k + 1) s = .next { final := s.endRun, records := [] } := by
  simp [runTo, hh]

/-- A run that goes on is one step and the run from there, with the step's record before the rest (R211). -/
theorem runTo_succ_next (hh : s.halted = false) (h : runTo (k + 1) s = .next r) :
    ∃ t q, step s = .next t ∧ runTo k t = .next q ∧
      r = { final := q.final, records := (edgeRecord s).toList ++ q.records } := by
  simp only [runTo, hh, Bool.false_eq_true, if_false] at h
  cases hstep : step s with
  | fault x => simp [hstep] at h
  | refused x => simp [hstep] at h
  | next t =>
    cases hrun : runTo k t with
    | fault x => simp [hstep, hrun] at h
    | refused x => simp [hstep, hrun] at h
    | next q =>
      simp only [hstep, hrun, Host.Outcome.next.injEq] at h
      exact ⟨t, q, rfl, hrun, h.symm⟩

end Loop

/-- Settles O60, by induction on the ceiling: each step of the loop is an executed cycle, with one record and one count. -/
theorem runEndsHaltedOrAtTheCeiling : Obligations.RunEndsHaltedOrAtTheCeiling := by
  intro k
  induction k with
  | zero =>
    intro s r _ _ h
    cases h
    exact ⟨le_rfl, .inr rfl, (BitVec.add_zero _).symm⟩
  | succ k ih =>
    intro s r hr hb h
    cases hh : s.halted with
    | true =>
      rw [runTo_of_halted k s hh] at h
      cases h
      exact ⟨Nat.zero_le _, .inl hh, (BitVec.add_zero _).symm⟩
    | false =>
      have he : executes s = true := (executes_iff s).2 ⟨hr, hb, hh⟩
      obtain ⟨t, q, hstep, hrun, rfl⟩ := runTo_succ_next k s r hh h
      obtain ⟨f, rfl⟩ := step_eq_cycle s t he hstep
      obtain ⟨hle, hend, hcount⟩ := ih (cycle Config.branchOracle f s) q hr hb hrun
      have hlen : ((edgeRecord s).toList ++ q.records).length = q.records.length + 1 := by
        simp [edgeRecord_of_executes s _ he hstep]
      simp only [hlen]
      refine ⟨by omega, hend.imp_right (congrArg (· + 1)), ?_⟩
      rw [hcount, cycle_mCycles, BitVec.add_assoc, Nat.add_comm, BitVec.ofNat_add]
      rfl

end Sys2Proof.Machine
end

section
/-! No edge faults (spec/60_exceptions.md R240), a HALT in WB beside a misprediction in EX (R246), and the debug build, whose
checks never fire on the core (R242). -/

namespace Sys2Proof.Machine

section NoFault
variable (s : State) (r : Fault)

/-- A clock edge of PE holds, is refused by the contract, or runs its cycle (R191, R208). -/
theorem runCycle_ne_fault (f : Option Instr) : runCycle f s ≠ .fault r := by
  rcases runCycle_cases f s with ⟨_, hrun⟩ | ⟨_, x, _, hrun⟩ | ⟨_, _, hrun⟩ <;> simp [hrun]

theorem exec_ne_fault (i : Instr) : exec i s ≠ .fault r := by
  rw [exec_eq_runCycle]
  exact runCycle_ne_fault s r (some i)

/-- Whatever the ROM port offers, a word the host did not place included (R60, R199). -/
theorem portCycle_ne_fault : portCycle s ≠ .fault r := by
  rcases fetchOffer_cases s with ⟨hs, _⟩ | ⟨a, w, hs, hw, _⟩ | ⟨_, _, _, hoffer⟩
  · rw [portCycle_of_no_fetch s hs]
    exact runCycle_ne_fault s r none
  · rw [portCycle_of_word s a w hs hw]
    exact runCycle_ne_fault s r (some (decode w))
  · simp [portCycle, hoffer]

theorem mapNext_ne_fault (h : State → State) {x : Host.Outcome State Fault Refusal} (hx : x ≠ .fault r) :
    mapNext h x ≠ .fault r := by
  cases x with
  | next t => simp [mapNext]
  | fault q => exact hx
  | refused q => simp [mapNext]

/-- A bp_rst edge is refused, resets BPU alone, or is PE's cycle with BPU reset beside it (R263, R264). -/
theorem bpResetEdge_ne_fault : bpResetEdge s ≠ .fault r := by
  unfold bpResetEdge
  split
  · simp
  · split
    · simp
    · split
      · simp
      · exact mapNext_ne_fault r _ (portCycle_ne_fault s.directed r)

/-- Each of the three kinds of edge: rst, bp_rst alone, and neither. -/
theorem step_ne_fault : step s ≠ .fault r := by
  cases hr : s.rst with
  | true => simp [step_of_rst s hr]
  | false =>
    cases hb : s.bpRst with
    | true =>
      rw [step_of_bpRst s hr hb]
      exact bpResetEdge_ne_fault s r
    | false =>
      rw [step_of_resets_low s hr hb]
      exact portCycle_ne_fault s r

end NoFault

/-- Settles O46: a step and an instruction come down to PE's cycle, which holds, runs or is refused. -/
theorem nothingFaults : Obligations.NothingFaults :=
  fun s r => ⟨step_ne_fault s r, exec_ne_fault s r⟩

/-- Settles O37: step 1 reads WB and step 6 reads EX, and neither excludes the other (R192, R203, R204). -/
theorem haltAndMispredictionTogether : Obligations.HaltAndMispredictionTogether := by
  intro i s r hh hc hwb hm
  obtain ⟨hcount, hflush, hifid, hpc⟩ := cycle_of_mispredict _ s (some i) r hm
  have hhalted : (cycle Config.branchOracle (some i) s).halted = true := by simp [nextHalted, hwb]
  exact ⟨_, exec_next i s hh hc, hhalted, hcount, hpc, hflush, hifid, rfl⟩

/-- What the debug build asks of a state: the engine's invariant, if the next edge is a cycle of a run (R242). -/
def ChecksPass (s : State) : Prop := executes s = true → engineInv s = true

section DebugBuild
variable (s t : State)

theorem checkedStep_of_checksPass (h : ChecksPass s) : checkedStep s = step s := by
  cases he : executes s with
  | false => simp [checkedStep, he]
  | true => simp [checkedStep, h he]

/-- What the debug build asks stays true: a rst edge sets the invariant up, a cycle of a run keeps it, the halted state is
fixed, and after a bp_rst edge the input is still high, so that nothing is asked. -/
theorem step_checksPass (h : ChecksPass s) (hstep : step s = .next t) : ChecksPass t := by
  rcases step_next_cases s t hstep with ⟨_, rfl⟩ | ⟨_, hb, _, _⟩ | ⟨_, _, _, rfl⟩ | ⟨hr, hb, hh, hc, _⟩
  · exact fun _ => resetEdge_engineInv s
  · intro he
    obtain ⟨_, hbt, _⟩ := (executes_iff t).1 he
    obtain ⟨_, hkept, _⟩ := (inputs_eq_iff s t).1 (step_inputs s t hstep)
    rw [hkept, hb] at hbt
    cases hbt
  · exact h
  · have he : executes s = true := (executes_iff s).2 ⟨hr, hb, hh⟩
    obtain ⟨f, rfl⟩ := step_eq_cycle s t he hstep
    exact fun _ => engineInvHoldsUnderEveryOracle _ f s (h he) hc

end DebugBuild

/-- A run faults only where a step does, and none does (R240). -/
theorem run_ne_fault (r : Fault) (n : Nat) (s : State) : Host.Core.run core n s ≠ .fault r := by
  induction n generalizing s with
  | zero => simp [Host.Core.run]
  | succ n ih =>
    cases hstep : step s with
    | next t =>
      rw [run_succ n s t hstep]
      exact ih t
    | fault q => exact absurd hstep (step_ne_fault s q)
    | refused q =>
      have hcore : core.step s = .refused q := hstep
      simp [Host.Core.run, hcore]

/-- By induction on the number of edges: on each the two builds answer alike, and the next state passes the checks again. -/
theorem run_checkedCore (n : Nat) (s : State) (h : ChecksPass s) :
    Host.Core.run checkedCore n s = Host.Core.run core n s := by
  induction n generalizing s with
  | zero => rfl
  | succ n ih =>
    have hsame : checkedCore.step s = core.step s := checkedStep_of_checksPass s h
    simp only [Host.Core.run, hsame]
    cases hstep : core.step s with
    | next t => exact ih t (step_checksPass s t h hstep)
    | fault q => rfl
    | refused q => rfl

/-- Settles O54: what the debug build checks holds at every edge from the first on, so it runs as the core does, which never
faults. -/
theorem debugBuildAgrees : Obligations.DebugBuildAgrees := by
  intro s h n
  have hrun := run_checkedCore n s h
  exact ⟨hrun, fun r => hrun ▸ run_ne_fault r n s⟩

end Sys2Proof.Machine
end

section
/-! The edges of the reset inputs (spec/70_reset_and_hazards.md R260 to R264): rst, and bp_rst in the halted state, outside a
run, where PE's cycle goes on beside it (R190), and during one. -/

namespace Sys2Proof.Machine

section ResetEdge
variable (s : State)

/-- A rst edge is no cycle (R260). -/
theorem edgeRecord_of_rst (hr : s.rst = true) : edgeRecord s = none := by
  simp [edgeRecord, isCycle, hr]

/-- A bp_rst edge makes neither call (R263). -/
theorem requests_of_bpRst (hb : s.bpRst = true) : predReq s = none ∧ updReq s = none := by
  simp [predReq, updReq, executes, hb]

/-- In the halted state a bp_rst edge resets BPU alone (R191, R263). -/
theorem bpResetEdge_of_halted (hh : s.halted = true) : bpResetEdge s = .next s.resetBpu := by
  simp [bpResetEdge, duringRun, hh]

/-- During a run a bp_rst edge is outside the contract (R264). -/
theorem bpResetEdge_of_duringRun (hd : duringRun s = true) : bpResetEdge s = .refused .bpResetDuringRun := if_pos hd

variable {s} (hd : duringRun s = false) (hh : s.halted = false)
include hd hh

/-- The cycle of a bp_rst edge is held to the contract of every cycle (R31, R164). -/
theorem bpResetEdge_of_breach {r : Refusal} (hc : contractBreach s = some r) : bpResetEdge s = .refused r := by
  simp [bpResetEdge, hd, hh, hc]

theorem bpResetEdge_of_contract (hc : contractBreach s = none) :
    bpResetEdge s = mapNext s.afterBpReset (portCycle s.directed) := by
  simp [bpResetEdge, hd, hh, hc]

end ResetEdge

/-- What the ROM port delivers in the cycle of s: where a fetch is made, the decoding of the word at its address (R199). -/
def romDelivers (s : State) (f : Option Instr) : Prop :=
  ∀ a, fetchSlot s = some a → ∃ w, Memory.read s.rom a.toNat = some w ∧ f = some (decode w)

section Directed
variable (s : State)

/-- The kind that stands in on a bp_rst edge is legal, and nothing else that the contract reads changes. -/
theorem directed_contractBreach (hc : contractBreach s = none) : contractBreach s.directed = none := by
  obtain ⟨_, hlen, hcount⟩ := (contractBreach_eq_none s).1 hc
  exact (contractBreach_eq_none s.directed).2 ⟨fun _ => directed_kind s, hlen, hcount⟩

/-- A cycle reads the kind only for the call of a branch that leaves ID and for BPU, so without that call two kinds give the
same cycle beside BPU (R31, R198). -/
theorem cycle_directed_of_no_call (o : Config.Oracle) (f : Option Instr) (h : predictCall s = none)
    (hdir : predictCall s.directed = none) :
    s.afterBpReset (cycle o f s.directed) = { cycle o f s with bpu := Bpu.reset, inRun := s.inRun } := by
  have haddr : fetchAddr s.directed = fetchAddr s := by simp [fetchAddr, h, hdir]
  have hslot : fetchSlot s.directed = fetchSlot s := by
    simp only [fetchSlot, haddr]
    rfl
  have hifid : nextIfid o f s.directed = nextIfid o f s := by
    simp only [nextIfid, hslot]
    rfl
  have hidex : nextIdex s.directed = nextIdex s := by
    simp only [nextIdex, predicted, h, hdir]
    rfl
  have hpc : nextPc o s.directed = nextPc o s := by
    simp only [nextPc, hslot, haddr]
    rfl
  simp only [afterBpReset_eq, cycle, hifid, hidex, hpc]
  rfl

/-- No call is made without a branch in ID or without a predictor, whatever the kind (R164, R198). -/
theorem predictCall_of_not_branch_or_disabled (h : s.ifid.isBranch = false ∨ s.cfgBpEn = false) :
    predictCall s = none := by
  rcases h with hid | hoff
  · exact predictCall_of_not_branch s hid
  · exact predictCall_of_disabled hoff

/-- With the program loaded and within the contract the ROM port's cycle runs, whatever the reset inputs are (R266). -/
theorem portCycle_of_romLoaded (hrom : romLoaded s) (hh : s.halted = false) (hc : contractBreach s = none) :
    ∃ f, portCycle s = .next (cycle Config.branchOracle f s) := by
  cases hs : fetchSlot s with
  | none => exact ⟨none, (portCycle_of_no_fetch s hs).trans (runCycle_none_next s hh hc)⟩
  | some a =>
    obtain ⟨w, hw⟩ := romLoaded_read s a hrom hc hs
    refine ⟨some (decode w), (portCycle_of_word s a w hs hw).trans ?_⟩
    rw [← exec_eq_runCycle, exec_next _ s hh hc]

/-- A cycle that answers has run on what the ROM port delivers (R199). -/
theorem portCycle_next_delivered (t : State) (hh : s.halted = false) (h : portCycle s = .next t) :
    ∃ f, t = cycle Config.branchOracle f s ∧ romDelivers s f := by
  obtain ⟨_, ⟨hs, ht⟩ | ⟨a, w, hs, hw, ht⟩⟩ := portCycle_next_cases s t hh h
  · exact ⟨none, ht, fun a ha => by simp [hs] at ha⟩
  · refine ⟨some (decode w), ht, fun b hb => ⟨w, ?_, rfl⟩⟩
    obtain rfl : a = b := Option.some.inj (hs.symm.trans hb)
    exact hw

end Directed

section BpResetCycle
variable {s : State} (hr : s.rst = false) (hh : s.halted = false)
include hr hh

/-- A bp_rst edge that answers is PE's cycle beside the reset of BPU (R190, R263). -/
theorem step_bpRst_next (hb : s.bpRst = true) (t : State) (h : step s = .next t) :
    ∃ f, t = s.afterBpReset (cycle Config.branchOracle f s.directed) ∧ romDelivers s.directed f := by
  rcases step_next_cases s t h with ⟨hhigh, _⟩ | ⟨_, _, _, ⟨hhalt, _⟩ | ⟨_, _, u, hu, rfl⟩⟩ | ⟨_, hlow, _⟩ | ⟨_, hlow, _⟩
  · simp [hr] at hhigh
  · simp [hh] at hhalt
  · obtain ⟨f, rfl, hf⟩ := portCycle_next_delivered s.directed u hh hu
    exact ⟨f, rfl, hf⟩
  · simp [hb] at hlow
  · simp [hb] at hlow

/-- Outside a run, bp_rst high or not, the edge emits the record of its cycle (R190, R209). -/
theorem edgeRecord_of_not_inRun (hrun : s.inRun = false) (t : State) (h : step s = .next t) :
    edgeRecord s = some (cycleRecord s t) := by
  simp [edgeRecord, isCycle, hr, hh, hrun, h]

end BpResetCycle

/-- Settles O43, by kind of edge: rst, bp_rst in the halted state, outside a run and during one. -/
theorem resetEdges : Obligations.ResetEdges := by
  intro s
  refine ⟨edgeRecord_of_rst s, requests_of_bpRst s, fun hr => ?_, fun hr hb hh => ?_, fun hr hb hh hrun => ?_,
    fun hr hb hh hrun => ?_⟩
  · rw [step_of_rst s hr, resetEdge_eq]
    rfl
  · rw [step_of_bpRst s hr hb, bpResetEdge_of_halted s hh, resetBpu_eq]
  · have hd : duringRun s = false := (duringRun_eq_false s).2 (.inr hrun)
    refine ⟨fun t h => ⟨edgeRecord_of_not_inRun hr hh hrun t h, ?_⟩, fun r hc => ?_, fun hc hrom => ?_⟩
    · obtain ⟨f, rfl, hf⟩ := step_bpRst_next hr hh hb t h
      refine ⟨f, hf, by rw [afterBpReset_eq, hrun], fun hno => ?_⟩
      rw [cycle_directed_of_no_call s _ f (predictCall_of_not_branch_or_disabled s hno)
        (predictCall_of_not_branch_or_disabled s.directed hno), hrun]
    · rw [step_of_bpRst s hr hb, bpResetEdge_of_breach hd hh hc]
    · obtain ⟨f, hport⟩ := portCycle_of_romLoaded s.directed hrom hh (directed_contractBreach s hc)
      exact ⟨_, by rw [step_of_bpRst s hr hb, bpResetEdge_of_contract hd hh hc, hport, mapNext]⟩
  · rw [step_of_bpRst s hr hb, bpResetEdge_of_duringRun s (by simp [duringRun, hrun, hh])]

end Sys2Proof.Machine
end

section
/-! The run that a reset begins: the loader's contract, and the run's independence of what the core held before
(spec/70_reset_and_hazards.md R264 to R266). -/

namespace Sys2Proof.Machine

section Begun
variable (c : RunConfig) (s : State)

/-- The state in which a run begins that the loader accepts (R260, R264, R266). -/
def RunConfig.begun : State := (resetEdge (c.drive s)).lowerResets

/-- Every element of the machine after the host drove the configuration and reset PE, and BPU where it raised bp_rst. -/
theorem begun_eq :
    c.begun s =
      { State.reset with
        cfgFwdEn := c.fwdEn, cfgBpEn := c.bpEn, cfgBpKind := c.bpKind
        cfgProgLen := BitVec.ofNat 17 c.program.length, rom := Memory.ofWords 0 c.program
        bpu := if c.freshBpu then Bpu.reset else s.bpu, inRun := true } := by
  rw [RunConfig.begun, resetEdge_eq]
  rfl

/-- A run that begins does so in that state. -/
theorem beginRun_next (u : State) (h : beginRun c s = .next u) : u = c.begun s := by
  cases hc : c.breach s with
  | some r => simp [beginRun_of_breach c s r hc] at h
  | none =>
    rw [beginRun_of_breach_none c s hc] at h
    cases h
    rfl

end Begun

/-- Settles O57: with both resets nothing of the state before the run is left in the one it begins in. -/
theorem roundTrip : Obligations.RoundTrip := by
  intro c s s' u u' hfresh hu hu' n
  have hsame : u = u' := by
    rw [beginRun_next c s u hu, beginRun_next c s' u' hu', begun_eq, begun_eq, hfresh]
    rfl
  rw [hsame]

section Loader
variable (c : RunConfig) (s : State)

/-- A program placed from address a on holds its k-th word at a + k and nothing past its end (R266). -/
theorem Memory.read_ofWords (ws : List Word) (a k : Nat) : Memory.read (Memory.ofWords a ws) (a + k) = ws[k]? := by
  induction ws generalizing a k with
  | nil => rfl
  | cons w rest ih =>
    cases k with
    | zero => simp [Memory.ofWords, Memory.read, sparseFind]
    | succ k =>
      have hrest := ih (a + 1) k
      rw [Nat.add_assoc, Nat.add_comm 1 k] at hrest
      simpa [Memory.ofWords, Memory.read, sparseFind] using hrest

/-- What the loader's checks let through, of what the core's contract asks (R31, R266). -/
theorem legal_of_breach_none (h : c.breach s = none) :
    c.program.length ≤ Config.pmax ∧ (c.bpEn = true → (BpKind.ofCode c.bpKind).isSome = true) := by
  refine ⟨not_lt.1 fun hlong => ?_, fun hen => Option.isSome_iff_ne_none.2 fun hnone => ?_⟩
  · simp [RunConfig.breach, hlong] at h
  · simp only [RunConfig.breach, hen, hnone, Option.isNone_none, Bool.and_self, if_true] at h
    split_ifs at h

/-- The length of a program of at most PMAX words fits cfg_prog_len (R31). -/
theorem progLen_toNat (h : c.program.length ≤ Config.pmax) :
    (BitVec.ofNat 17 c.program.length).toNat = c.program.length := by
  rw [Config.pmax] at h
  rw [BitVec.toNat_ofNat, Nat.mod_eq_of_lt (by omega)]

theorem breach_of_malformed (hlen : c.program.length ≤ Config.pmax) (hwf : programWf c.program = false) :
    c.breach s = some .malformedProgram := by
  simp [RunConfig.breach, Nat.not_lt.2 hlen, hwf]

end Loader

/-- Settles O58: the ROM the loader fills reads back as the program, and the reset edge gives the rest. -/
theorem loaderPlacesTheProgram : Obligations.LoaderPlacesTheProgram := by
  refine ⟨fun c s hok => ?_, fun c s hlen hwf => beginRun_of_breach c s _ (breach_of_malformed c s hlen hwf)⟩
  obtain ⟨hlen, hkind⟩ := legal_of_breach_none c s hok
  have hread : ∀ a, Memory.read (Memory.ofWords 0 c.program) a = c.program[a]? := fun a => by
    simpa using Memory.read_ofWords c.program 0 a
  have hprog := progLen_toNat c hlen
  refine ⟨c.begun s, beginRun_of_breach_none c s hok, ?_⟩
  rw [begun_eq]
  refine ⟨rfl, rfl, hprog, hread, fun a ha => ?_, Memory.ofWords_wf _ 0 (by simpa using hlen), rfl, rfl, rfl, rfl, rfl, rfl,
    (contractBreach_eq_none _).2 ⟨hkind, hprog.trans_le hlen, (by decide : (0 : Count) ≠ BitVec.allOnes 64)⟩, rfl⟩
  have hlt : a < c.program.length := ha.trans_eq hprog
  simp [hread, hlt]

end Sys2Proof.Machine
end

section
/-! What the loaded program decides about a cycle: the word placed where the core fetches next, and the empty program, from which
nothing is ever fetched (spec/70_reset_and_hazards.md R266, R267). -/

namespace Sys2Proof.Machine

section PlaceFetch
variable (s : State) (w : Word)

/-- An address at which the ROM can hold a word is the same number in each of its readings (R9, R67). -/
theorem fetch_position (a : Addr) (h0 : 0 ≤ a.toInt) (hlt : a.toInt < Config.pmax) :
    (a.setWidth 16 : Pos).toNat = a.toInt.toNat := by
  have hin : inProgram a 65536 = true := (inProgram_iff a 65536).2 ⟨h0, hlt⟩
  obtain ⟨hpos, hbelow, _⟩ := inProgram_pos a 65536 hin le_rfl
  have hsmall : a.toNat < 65536 := hbelow
  have hint : a.toInt = a.toNat := BitVec.toInt_eq_toNat_of_lt (by omega)
  rw [hpos, hint, Int.toNat_natCast]

/-- The program is long enough for the word placed at the fetch address. -/
theorem placeAtFetch_inProgram (h0 : 0 ≤ (fetchAddr s).toInt) (hlt : (fetchAddr s).toInt < Config.pmax) :
    inProgram (fetchAddr s) (placeAtFetch s w).cfgProgLen = true := by
  simp only [inProgram_iff, placeAtFetch, Config.pmax] at hlt ⊢
  refine ⟨h0, ?_⟩
  split
  · rw [BitVec.toNat_ofNat]
    omega
  · omega

/-- The next cycle fetches the word placed. -/
theorem placeAtFetch_fetch (ha : arm s = .advance) (hh : nextHalted s = false) (h0 : 0 ≤ (fetchAddr s).toInt)
    (hlt : (fetchAddr s).toInt < Config.pmax) :
    fetchSlot (placeAtFetch s w) = some ((fetchAddr s).setWidth 16) ∧
      Memory.read (placeAtFetch s w).rom ((fetchAddr s).setWidth 16 : Pos).toNat = some w := by
  refine ⟨(fetchSlot_eq_some _ _).2 ⟨ha, placeAtFetch_inProgram s w h0 hlt, hh, rfl⟩, ?_⟩
  rw [fetch_position _ h0 hlt]
  exact Memory.read_place_self s.rom _ w (by omega)

end PlaceFetch

/-- Settles O26: the word stands at the address the next cycle fetches, and a step runs the decoding of that. -/
theorem placedWordRunsNext : Obligations.PlacedWordRunsNext := by
  intro s w hr hb ha hh h0 hlt hw
  obtain ⟨hslot, hread⟩ := placeAtFetch_fetch s (BitVec.ofNat 64 w) ha hh h0 hlt
  have hplaced : s.withFetchWord 64 w = placeAtFetch s (BitVec.ofNat 64 w) := by
    rw [State.withFetchWord, Nat.mod_eq_of_lt hw]
  rw [hplaced]
  exact (stepRunsTheDecodedWord (placeAtFetch s _) hr hb).1 _ _ hslot hread

section EmptyProgram

/-- A running core with an empty pipe, no countdown and no program (R267). -/
structure EmptyPipe (s : State) : Prop where
  executes : executes s = true
  noProgram : s.cfgProgLen = 0
  noFlush : s.flush = 0
  ifid : ∃ b, s.ifid = .bubble b
  idex : ∃ b, s.idex.latch = .bubble b
  exmem : ∃ b, s.exmem = .bubble b
  memwb : ∃ b, s.memwb = .bubble b

/-- The state t with the fields of s that an empty cycle may change: the latches, m_cycles and inRun. -/
def State.withIdleFieldsOf (t s : State) : State :=
  { t with ifid := s.ifid, idex := s.idex, exmem := s.exmem, memwb := s.memwb, mCycles := s.mCycles, inRun := s.inRun }

/-- What an empty cycle leaves in IFID and in the prediction record of IDEX (R194, R200). -/
def nothingFetched (s : State) : Prop := s.ifid = .bubble .empty ∧ s.idex.predV = false ∧ s.idex.predT = false

/-- What n empty cycles from s leave in t. -/
structure OnlyCounted (n : Nat) (s t : State) : Prop where
  pipe : EmptyPipe t
  cycles : t.mCycles = s.mCycles + BitVec.ofNat 64 n
  fetched : 0 < n ∨ nothingFetched s → nothingFetched t
  rest : t.withIdleFieldsOf s = s

variable {s t : State} {n : Nat}

theorem inProgram_zero (a : Addr) : inProgram a 0 = false := by
  rw [inProgram_eq_false_iff]
  simpa using lt_or_ge a.toInt 0

/-- An empty cycle only moves the bubbles on (R200). -/
theorem EmptyPipe.step (h : EmptyPipe s) (hroom : roomFor (n + 1) s = true) : step s = .next s.drained := by
  obtain ⟨b, hid⟩ := h.ifid
  obtain ⟨_, hex⟩ := h.idex
  have hpast : inProgram s.pc s.cfgProgLen = false := by rw [h.noProgram, inProgram_zero]
  exact Draining.step ⟨h.executes, hroom, h.noFlush, hpast⟩ (hazard_bubble s b hid) (by simp [hid]) (by simp [hex])

theorem EmptyPipe.drained (h : EmptyPipe s) : EmptyPipe s.drained := by
  obtain ⟨_, hwb⟩ := h.memwb
  exact ⟨executes_drained h.executes (by simp [hwb]), h.noProgram, h.noFlush, ⟨.empty, rfl⟩, h.ifid, h.idex, h.exmem⟩

/-- With a bubble in WB nothing retires and nothing halts (R192). -/
theorem EmptyPipe.drained_rest (h : EmptyPipe s) : s.drained.withIdleFieldsOf s = s := by
  obtain ⟨_, hwb⟩ := h.memwb
  have hhalted : nextHalted s = s.halted := by simp [nextHalted, hwb]
  have hretired : nextRetired s = s.mRetired := by simp [nextRetired, hwb]
  simp only [State.withIdleFieldsOf, State.drained, hhalted, hretired]

theorem OnlyCounted.refl (h : EmptyPipe s) : OnlyCounted 0 s s :=
  ⟨h, (BitVec.add_zero _).symm, fun hs => hs.resolve_left (lt_irrefl 0), rfl⟩

/-- One empty cycle before n others makes n + 1. -/
theorem OnlyCounted.of_drained (h : EmptyPipe s) (ht : OnlyCounted n s.drained t) : OnlyCounted (n + 1) s t where
  pipe := ht.pipe
  cycles := by
    rw [ht.cycles, Nat.add_comm, BitVec.ofNat_add, ← BitVec.add_assoc]
    rfl
  fetched _ := ht.fetched (.inr ⟨rfl, rfl, rfl⟩)
  rest := (congrArg (fun u => State.withIdleFieldsOf u s) ht.rest).trans h.drained_rest

/-- By induction on the cycles: there is room for each one that runs. -/
theorem run_of_emptyPipe (h : EmptyPipe s) (hroom : 0 < n → roomFor n s = true) :
    ∃ t, Host.Core.run core n s = .next t ∧ OnlyCounted n s t := by
  induction n generalizing s with
  | zero => exact ⟨s, run_zero s, .refl h⟩
  | succ n ih =>
    have hroom1 : roomFor (n + 1) s = true := hroom n.succ_pos
    obtain ⟨t, hrun, ht⟩ := ih h.drained fun hn => roomFor_cycle Config.branchOracle none (n + 1) s (by omega) hroom1
    exact ⟨t, by rw [run_succ n s _ (h.step hroom1), hrun], .of_drained h ht⟩

end EmptyProgram

/-- Settles O56: an empty pipe with no program stays one over every cycle. -/
theorem emptyProgramOnlyCounts : Obligations.EmptyProgramOnlyCounts := by
  intro n s he hroom hlen hf hid hex hmem hwb
  rw [kind_ne_instr] at hid hex hmem hwb
  obtain ⟨t, hrun, ht⟩ := run_of_emptyPipe ⟨he, hlen, hf, hid, hex, hmem, hwb⟩ fun _ => hroom
  obtain ⟨_, _, hh⟩ := (executes_iff t).1 ht.pipe.executes
  exact ⟨t, hrun, hh, ht.cycles, (kind_ne_instr _).2 ht.pipe.ifid, (kind_ne_instr _).2 ht.pipe.idex,
    (kind_ne_instr _).2 ht.pipe.exmem, (kind_ne_instr _).2 ht.pipe.memwb, fun hn => ht.fetched (.inl hn), ht.rest⟩

end Sys2Proof.Machine
end

section
/-! What is in ID behind a mispredicted branch (spec/70_reset_and_hazards.md R270), and a branch predicted taken to a target
outside the program (R273). -/

namespace Sys2Proof.Machine

section Shadow
variable (s : State)

/-- In normal advance what was in ID goes on to EX, predicted or not (R197). -/
theorem nextIdex_latch_of_advance (ha : arm s = .advance) : (nextIdex s).latch = s.ifid := by
  rcases nextIdex_cases s with ⟨hf, _⟩ | ⟨hst, _⟩ | ⟨_, ⟨_, hx⟩ | ⟨_, _, hx⟩⟩
  · simp [ha] at hf
  · simp [ha] at hst
  · rw [hx, plain_latch]
  · rw [hx]

end Shadow

/-- Settles O38: the misprediction squashes IFID, and IDEX is left to the arm (R194 to R197, R204). -/
theorem mispredictShadowGoesOn : Obligations.MispredictShadowGoesOn := by
  intro i s r hh hc hm
  obtain ⟨_, _, hifid, _⟩ := cycle_of_mispredict Config.branchOracle s (some i) r hm
  refine ⟨_, exec_next i s hh hc, hifid, nextIdex_latch_of_advance s, fun ha => ?_⟩
  rw [cycle_idex, nextIdex_of_rawStall s ha, plain_latch]

section OutOfRange
variable {s : State}

/-- With a bubble in ID and no countdown a cycle advances from pc (R197, R199). -/
theorem advance_of_bubble {b : Bubble} (hf : s.flush = 0) (hid : s.ifid = .bubble b) :
    arm s = .advance ∧ fetchAddr s = s.pc :=
  ⟨arm_of_no_stall s hf (hazard_bubble s b hid), fetchAddr_of_no_call s (predictCall_of_bubble s b hid)⟩

/-- From a bubble in ID, and with the branch in EX guessed right, the instruction at pc is fetched if pc is in the program. -/
theorem fetch_at_pc {b : Bubble} {f : Option Instr} (hf : s.flush = 0) (hid : s.ifid = .bubble b)
    (hh : nextHalted s = false) (hm : mispredict Config.branchOracle s = none) (hin : inProgram s.pc s.cfgProgLen = true)
    (hfetch : romDelivers s f) :
    ∃ w, Memory.read s.rom (s.pc.setWidth 16 : Pos).toNat = some w ∧
      (cycle Config.branchOracle f s).ifid = .instr (decode w) (s.pc.setWidth 16) := by
  obtain ⟨ha, haddr⟩ := advance_of_bubble hf hid
  have hs : fetchSlot s = some (s.pc.setWidth 16) :=
    (fetchSlot_eq_some s _).2 ⟨ha, by rwa [haddr], hh, by rw [haddr]⟩
  obtain ⟨w, hread, rfl⟩ := hfetch _ hs
  exact ⟨w, hread, nextIfid_of_fetch _ s _ _ hm hs⟩

/-- The state after a branch at p was predicted taken to an address outside the program: the fetch has failed, pc is at the
fall-through, and the branch is in EX with its record (R198, R200). -/
structure PredictedOutside (i : Instr) (p : Pos) (t : State) : Prop where
  ifid : t.ifid = .bubble .empty
  idex : t.idex = { latch := .instr i p, predV := true, predT := true }
  pc : t.pc = fallthrough p
  flush : t.flush = 0

/-- The cycle in which such a branch leaves ID. -/
theorem predictedOutside_cycle {i : Instr} {p : Pos} {k : BpKind} (f : Option Instr) (ha : arm s = .advance)
    (hm : mispredict Config.branchOracle s = none) (hi : s.ifid = .instr i p) (hb : (roleOf i).branch = true)
    (hpc : s.pc = fallthrough p) (hk : attached s = some k) (htaken : predictTaken k s.bpu p = true)
    (hout : inProgram (target p i.fields.imm) s.cfgProgLen = false) :
    PredictedOutside i p (cycle Config.branchOracle f s) := by
  have haddr : fetchAddr s = target p i.fields.imm := by
    rw [fetchAddr_of_branch s i p k ha hi hb hk, htaken]
    rfl
  have hs : fetchSlot s = none := fetchSlot_of_out_of_program s (by rwa [haddr])
  exact {
    ifid := nextIfid_of_failed_fetch _ f s hm ha hs
    idex := by rw [cycle_idex, nextIdex_of_branch s ha hi hb, State.guessAt, hk]; simp [htaken]
    pc := (nextPc_of_no_fetch _ s hm hs).trans hpc
    flush := (nextFlush_of_advance s ha hm).trans (flush_of_arm s (by simp [ha])) }

/-- What that branch resolves to: it was guessed taken (R201). -/
theorem PredictedOutside.resolve {i : Instr} {p : Pos} (h : PredictedOutside i p s) (hb : (roleOf i).branch = true) :
    resolve Config.branchOracle s.idex =
      some
        { pos := p, actual := Config.branchOracle i p, guess := true
          correct := continueAt p i.fields.imm (Config.branchOracle i p) } := by
  rw [h.idex]
  exact resolve_of_branch Config.branchOracle _ rfl hb

section Resolved
variable {i : Instr} {p : Pos} (g : Option Instr) (h : PredictedOutside i p s) (hb : (roleOf i).branch = true)
include h hb

/-- A right guess counts no misprediction, and the fall-through is fetched if it is in the program (R201, R273). -/
theorem PredictedOutside.cycle_of_taken (hact : Config.branchOracle i p = true) (hh : nextHalted s = false)
    (hfetch : romDelivers s g) :
    (cycle Config.branchOracle g s).mBpMispredictions = s.mBpMispredictions ∧
      (cycle Config.branchOracle g s).mBpPredictions = s.mBpPredictions + 1 ∧
      (inProgram (fallthrough p) s.cfgProgLen = true →
        ∃ w, Memory.read s.rom ((fallthrough p).setWidth 16 : Pos).toNat = some w ∧
          (cycle Config.branchOracle g s).ifid = .instr (decode w) ((fallthrough p).setWidth 16)) := by
  have hres := h.resolve hb
  have hm : mispredict Config.branchOracle s = none := mispredict_of_right_guess _ s hres hact.symm
  refine ⟨by simp [hm], by simp [hres], ?_⟩
  rw [← h.pc]
  exact fun hin => fetch_at_pc h.flush h.ifid hh hm hin hfetch

/-- A wrong guess squashes the fall-through and sends pc back to it (R203, R204, R273). -/
theorem PredictedOutside.cycle_of_not_taken (hact : Config.branchOracle i p = false) :
    (cycle Config.branchOracle g s).mBpMispredictions = s.mBpMispredictions + 1 ∧
      (cycle Config.branchOracle g s).pc = fallthrough p ∧ (cycle Config.branchOracle g s).ifid = .bubble .flush ∧
      (cycle Config.branchOracle g s).flush = 2 := by
  have hm := (mispredict_eq_some Config.branchOracle s _).2 ⟨h.resolve hb, by simp [hact]⟩
  obtain ⟨hcount, hflush, hifid, hpc⟩ := cycle_of_mispredict _ s g _ hm
  rw [hact] at hpc
  exact ⟨hcount, hpc, hifid, hflush⟩

end Resolved

end OutOfRange

/-- Settles O41: after the failed fetch the branch resolves with pc at its fall-through, which a right guess lets the core fetch
and a wrong one makes the correct address. -/
theorem outOfRangePredictionFallsThrough : Obligations.OutOfRangePredictionFallsThrough := by
  intro s i p k he hroom hrom ha hm hwb hmem hi hop hpc hk htaken hout
  have hb : (roleOf i).branch = true := (roleOf_branch i).2 hop
  obtain ⟨f, hstep, _⟩ := step_of_romLoaded s hrom he (contract_of_roomFor 2 s hroom)
  have hout' := predictedOutside_cycle f ha hm hi hb hpc hk htaken hout
  have he' : executes (cycle Config.branchOracle f s) = true := executes_cycle _ f s he hwb
  have hc' : contractBreach (cycle Config.branchOracle f s) = none :=
    contract_of_roomFor 1 _ (roomFor_cycle _ f 2 s le_rfl hroom)
  have hh' : nextHalted (cycle Config.branchOracle f s) = false := by
    obtain ⟨_, _, hh⟩ := (executes_iff _).1 he'
    rw [nextHalted, hh, cycle_memwb, hmem, Bool.or_false]
  obtain ⟨g, hstep', hfetch⟩ := step_of_romLoaded (cycle Config.branchOracle f s) hrom he' hc'
  exact ⟨_, _, hstep, hout'.ifid, hout'.pc, hstep', fun hact => hout'.cycle_of_taken g hb hact hh' hfetch,
    hout'.cycle_of_not_taken g hb⟩

end Sys2Proof.Machine
end
